-- ==== Sys2Proof/Word.lean ====
section
/-! DEFINITION. The two word types of the AFX unit and their plainest readings: the 32-bit word of the
command port and of every register, the 16-bit sample, and the encoders `enc_N` of rule R6. -/

namespace Sys2Proof

/-- A 32-bit word: command word, operand word, response data, parameter register (R5 `WORD_BITS`). -/
abbrev Word := BitVec 32

/-- A 16-bit two's-complement sample (R5 `SAMPLE_BITS`). `BitVec.toInt` is its value. -/
abbrev Sample := BitVec 16

/-- `enc_32(z)` of R6: the two's-complement encoding of `z` in 32 bits. -/
def encWord (z : Int) : Word := BitVec.ofInt 32 z

/-- `enc_16(z)` of R6: the two's-complement encoding of `z` in 16 bits. -/
def encSample (z : Int) : Sample := BitVec.ofInt 16 z

end Sys2Proof
end

