-- ==== Sys2Proof/Syntax.lean ====
section
/-! DEFINITION. The commands of the AFX unit as abstract syntax: one constructor per row of
spec/opcode_table.json (30_encoding.md R83), the nine effect kinds (10_state.md R24), and the request
the host presents on the command port (R80). -/

namespace Sys2Proof

/-- The nine kinds a slot can hold (R24). `EMPTY` (code 0) is the absence of an instance, and no
command can construct it. -/
inductive Kind where
  | boost
  | distortion
  | fuzz
  | tremolo
  | delay
  | adsrGain
  | pitchShift
  | compSk
  | compLog
  deriving DecidableEq, Repr

/-- A request of R80: the command word and the operand word, presented together. -/
structure Request where
  cmd : Word
  opd : Word
  deriving DecidableEq, Repr

/-- The fifteen commands (R83). Slot and register indexes are plain numbers; `WellFormed` says when
the fields of the command word can hold them. A command that ignores the operand word has no operand
for it (R80). -/
inductive Instr where
  /-- `NOP` (R111). -/
  | nop
  /-- `CONSTRUCT s<slot>, KIND` (R112). -/
  | construct (slot : Nat) (kind : Kind)
  /-- `DESTROY s<slot>` (R113). -/
  | destroy (slot : Nat)
  /-- `DUP s<src>, s<dst>` (R114). -/
  | dup (src dst : Nat)
  /-- `SETACTIVE s<slot>, flag` (R115). -/
  | setActive (slot : Nat) (flag : Bool)
  /-- `GETACTIVE s<slot>` (R116). -/
  | getActive (slot : Nat)
  /-- `SETID s<slot>, id` (R117). -/
  | setId (slot : Nat) (id : Word)
  /-- `GETID s<slot>` (R118). -/
  | getId (slot : Nat)
  /-- `SETPARAM s<slot>, reg, value` (R119). -/
  | setParam (slot reg : Nat) (value : Word)
  /-- `GETPARAM s<slot>, reg` (R123). -/
  | getParam (slot reg : Nat)
  /-- `PROCESS s<slot>, sample` (R140). -/
  | process (slot : Nat) (sample : Sample)
  /-- `BUFRD s<slot>, index` (R124). -/
  | bufRd (slot : Nat) (index : Word)
  /-- `LINKWR sample0, sample1` (R125). -/
  | linkWr (sample0 sample1 : Sample)
  /-- `LINKRD` (R126). -/
  | linkRd
  /-- `GETSTATUS` (R127). -/
  | getStatus
  deriving DecidableEq, Repr

end Sys2Proof
end

