-- ==== Sys2Proof/WellFormed.lean ====
section
/-! DEFINITION. Which terms of `Instr` a command word can carry: the slot fields have four bits and the
register index eight (30_encoding.md R81, R82, R85). Every other operand is well formed by its type. -/

namespace Sys2Proof

/-- A slot index fits the four-bit slot field (R81). -/
def slotFits (i : Nat) : Bool := decide (i < 16)

/-- A register index fits `imm[7:0]` (R81). -/
def regFits (r : Nat) : Bool := decide (r < 256)

/-- The command can be written in a command word: each index fits its field (R81, R85). Whether the
slot exists (`< NSLOT`) and whether the register exists are checks of the execution, not of the syntax
(R110). -/
def WellFormed : Instr → Bool
  | .nop => true
  | .construct i _ => slotFits i
  | .destroy i => slotFits i
  | .dup i j => slotFits i && slotFits j
  | .setActive i _ => slotFits i
  | .getActive i => slotFits i
  | .setId i _ => slotFits i
  | .getId i => slotFits i
  | .setParam i r _ => slotFits i && regFits r
  | .getParam i r => slotFits i && regFits r
  | .process i _ => slotFits i
  | .bufRd i _ => slotFits i
  | .linkWr _ _ => true
  | .linkRd => true
  | .getStatus => true

end Sys2Proof
end

