-- ==== Sys2Proof/Decode.lean ====
section
/-! DEFINITION. The command encoding of 30_encoding.md: fields of the command word (R81), the opcode map
(R83), the decoder, total on every request and rejecting by name (R88, R89), and after it the encoder
(R92). -/

namespace Sys2Proof

/-- The four fields of a command word (R81). -/
structure Fields where
  op : BitVec 8
  slot : BitVec 4
  aux : BitVec 4
  imm : BitVec 16
  deriving DecidableEq, Repr

/-- Reads the fields of a command word: `op = cmd[31:24]`, `slot = cmd[23:20]`, `aux = cmd[19:16]`,
`imm = cmd[15:0]` (R81). -/
def fieldsOf (cmd : Word) : Fields where
  op := cmd.extractLsb' 24 8
  slot := cmd.extractLsb' 20 4
  aux := cmd.extractLsb' 16 4
  imm := cmd.extractLsb' 0 16

/-- The command word `{op, slot, aux, imm}` (R81). -/
def assemble (op : BitVec 8) (slot aux : BitVec 4) (imm : BitVec 16) : Word :=
  (op ++ slot ++ aux ++ imm : BitVec (8 + 4 + 4 + 16))

/-- A row of the opcode map: a word selects it iff `cmd & mask == match` (R83). -/
structure OpcodeRow where
  mnemonic : String
  matchWord : Word
  mask : Word
  deriving DecidableEq, Repr

/-- The opcode map, row by row as R83 prints it. -/
def opcodeMap : List OpcodeRow :=
  [ ⟨"NOP",       0x00000000, 0xFFFFFFFF⟩,
    ⟨"CONSTRUCT", 0x01000000, 0xFF00FFFF⟩,
    ⟨"DESTROY",   0x02000000, 0xFF0FFFFF⟩,
    ⟨"DUP",       0x03000000, 0xFF00FFFF⟩,
    ⟨"SETACTIVE", 0x04000000, 0xFF0FFFFE⟩,
    ⟨"GETACTIVE", 0x05000000, 0xFF0FFFFF⟩,
    ⟨"SETID",     0x06000000, 0xFF0FFFFF⟩,
    ⟨"GETID",     0x07000000, 0xFF0FFFFF⟩,
    ⟨"SETPARAM",  0x08000000, 0xFF0FFF00⟩,
    ⟨"GETPARAM",  0x09000000, 0xFF0FFF00⟩,
    ⟨"PROCESS",   0x0A000000, 0xFF0F0000⟩,
    ⟨"BUFRD",     0x0B000000, 0xFF0FFFFF⟩,
    ⟨"LINKWR",    0x0C000000, 0xFFFFFFFF⟩,
    ⟨"LINKRD",    0x0D000000, 0xFFFFFFFF⟩,
    ⟨"GETSTATUS", 0x0E000000, 0xFFFFFFFF⟩ ]

/-- `cmd` selects the row (R83). -/
def OpcodeRow.selects (row : OpcodeRow) (cmd : Word) : Bool := cmd &&& row.mask == row.matchWord

/-- The 4-bit kind code of R24. -/
def Kind.code : Kind → BitVec 4
  | .boost => 1
  | .distortion => 2
  | .fuzz => 3
  | .tremolo => 4
  | .delay => 5
  | .adsrGain => 6
  | .pitchShift => 7
  | .compSk => 8
  | .compLog => 9

/-- The kind a code of R24 names; codes 0 and 10 to 15 name none that `CONSTRUCT` accepts (R88). -/
def Kind.ofCode (code : BitVec 4) : Option Kind :=
  match code.toNat with
  | 1 => some .boost
  | 2 => some .distortion
  | 3 => some .fuzz
  | 4 => some .tremolo
  | 5 => some .delay
  | 6 => some .adsrGain
  | 7 => some .pitchShift
  | 8 => some .compSk
  | 9 => some .compLog
  | _ => none

/-- Why a command word is illegal (R88). The status is `ERR_ILLEGAL` for each. -/
inductive DecodeError where
  /-- `op` is `0x0F` to `0xFF`. -/
  | reservedOpcode (op : BitVec 8)
  /-- A field, or a part of `imm`, that the format marks zero is not zero. -/
  | mustBeZero (op : BitVec 8)
  /-- A `CONSTRUCT` whose kind code is 0 or 10 to 15. -/
  | reservedKind (code : BitVec 4)
  deriving DecidableEq, Repr

/-- The instruction if the must-be-zero bits of the format are zero (R82, R88). -/
def ifZero (f : Fields) (zero : Bool) (i : Instr) : Except DecodeError Instr :=
  if zero then .ok i else .error (.mustBeZero f.op)

/-- `CONSTRUCT`: the kind check is in addition to match and mask (R88). -/
def decodeConstruct (f : Fields) : Except DecodeError Instr :=
  match Kind.ofCode f.aux with
  | some k => ifZero f (f.imm == 0) (.construct f.slot.toNat k)
  | none => .error (.reservedKind f.aux)

/-- Decodes the fields of a command word and its operand word by the formats of R82. -/
def decodeFields (f : Fields) (opd : Word) : Except DecodeError Instr :=
  match f.op.toNat with
  | 0x00 => ifZero f (f.slot == 0 && f.aux == 0 && f.imm == 0) .nop
  | 0x01 => decodeConstruct f
  | 0x02 => ifZero f (f.aux == 0 && f.imm == 0) (.destroy f.slot.toNat)
  | 0x03 => ifZero f (f.imm == 0) (.dup f.slot.toNat f.aux.toNat)
  | 0x04 => ifZero f (f.aux == 0 && f.imm.extractLsb' 1 15 == 0) (.setActive f.slot.toNat (f.imm.getLsbD 0))
  | 0x05 => ifZero f (f.aux == 0 && f.imm == 0) (.getActive f.slot.toNat)
  | 0x06 => ifZero f (f.aux == 0 && f.imm == 0) (.setId f.slot.toNat opd)
  | 0x07 => ifZero f (f.aux == 0 && f.imm == 0) (.getId f.slot.toNat)
  | 0x08 => ifZero f (f.aux == 0 && f.imm.extractLsb' 8 8 == 0)
      (.setParam f.slot.toNat (f.imm.extractLsb' 0 8).toNat opd)
  | 0x09 => ifZero f (f.aux == 0 && f.imm.extractLsb' 8 8 == 0)
      (.getParam f.slot.toNat (f.imm.extractLsb' 0 8).toNat)
  | 0x0A => ifZero f (f.aux == 0) (.process f.slot.toNat f.imm)
  | 0x0B => ifZero f (f.aux == 0 && f.imm == 0) (.bufRd f.slot.toNat opd)
  | 0x0C => ifZero f (f.slot == 0 && f.aux == 0 && f.imm == 0)
      (.linkWr (opd.extractLsb' 0 16) (opd.extractLsb' 16 16))
  | 0x0D => ifZero f (f.slot == 0 && f.aux == 0 && f.imm == 0) .linkRd
  | 0x0E => ifZero f (f.slot == 0 && f.aux == 0 && f.imm == 0) .getStatus
  | _ => .error (.reservedOpcode f.op)

/-- The decoder (R83, R85, R88, R89): every pair of words is an instruction or is rejected by name. -/
def decode (r : Request) : Except DecodeError Instr := decodeFields (fieldsOf r.cmd) r.opd

/-- The 8-bit register-index form of `imm` (R82, formats `SR` and `SRW`). -/
def regImm (reg : Nat) : BitVec 16 := ((0 : BitVec 8) ++ BitVec.ofNat 8 reg : BitVec (8 + 8))

/-- The flag form of `imm` (R82, format `SB`). -/
def flagImm (b : Bool) : BitVec 16 := if b then 1 else 0

/-- The four-bit form of a slot index (R81). -/
def slotBits (i : Nat) : BitVec 4 := BitVec.ofNat 4 i

/-- The command word of an instruction (R92). -/
def encodeCmd : Instr → Word
  | .nop => assemble 0x00 0 0 0
  | .construct i k => assemble 0x01 (slotBits i) k.code 0
  | .destroy i => assemble 0x02 (slotBits i) 0 0
  | .dup i j => assemble 0x03 (slotBits i) (slotBits j) 0
  | .setActive i b => assemble 0x04 (slotBits i) 0 (flagImm b)
  | .getActive i => assemble 0x05 (slotBits i) 0 0
  | .setId i _ => assemble 0x06 (slotBits i) 0 0
  | .getId i => assemble 0x07 (slotBits i) 0 0
  | .setParam i r _ => assemble 0x08 (slotBits i) 0 (regImm r)
  | .getParam i r => assemble 0x09 (slotBits i) 0 (regImm r)
  | .process i x => assemble 0x0A (slotBits i) 0 x
  | .bufRd i _ => assemble 0x0B (slotBits i) 0 0
  | .linkWr _ _ => assemble 0x0C 0 0 0
  | .linkRd => assemble 0x0D 0 0 0
  | .getStatus => assemble 0x0E 0 0 0

/-- The operand word of an instruction (R85, R92): 0 where the command ignores it. -/
def encodeOpd : Instr → Word
  | .setId _ n => n
  | .setParam _ _ v => v
  | .bufRd _ k => k
  | .linkWr a b => (b ++ a : BitVec (16 + 16))
  | .nop => 0
  | .construct _ _ => 0
  | .destroy _ => 0
  | .dup _ _ => 0
  | .setActive _ _ => 0
  | .getActive _ => 0
  | .getId _ => 0
  | .getParam _ _ => 0
  | .process _ _ => 0
  | .linkRd => 0
  | .getStatus => 0

/-- The encoder (R92): the request that stands for an instruction. -/
def encode (i : Instr) : Request := ⟨encodeCmd i, encodeOpd i⟩

/-- The request whose bits are `w` in the numbering of spec/opcode_table.json: the command word is bits
31..0, the operand word bits 63..32, and every bit from `nbits` on is 0 (notes/assumptions/14.md). -/
def requestOfTableWord (nbits w : Nat) : Request :=
  let v := w % 2 ^ nbits
  ⟨BitVec.ofNat 32 v, BitVec.ofNat 32 (v / 2 ^ 32)⟩

/-- What the decoder reads from an instruction whose bits are `w` (numbered as the opcode table numbers
them), `none` where it refuses. -/
def decodeTableWord (nbits w : Nat) : Option Instr := (decode (requestOfTableWord nbits w)).toOption

end Sys2Proof
end

