-- ==== Sys2Proof/Config.lean ====
section
/-! DEFINITION. What one AFX unit fixes and does not change while it runs: the parameters R5 marks
"argument" (00_scope.md R5, 10_state.md R43, the last section of 92_eei_decisions.md), and the free
values the two external collaborators answer with (44_wrappers.md R200, R202). The default values of the
parameters stand in Machine/Rom.lean. -/

namespace Sys2Proof

/-- The argument `ROUND` of R5: the one rule for every conversion of an exact value to an integer.
DEDUCED (notes/assumptions/5.md): the default truncates toward zero (R8), and D6 names `floor` as the one
other rule the source's worked number leaves open. Safe: the default is the spec's, and statements hold
for both unless they say which. -/
inductive Rounding where
  | truncate
  | floor
  deriving DecidableEq, Repr

/-- The argument "construction defaults" of R5: the table of R42, the start of the running state with it. `LEN`, `CURSOR`
and the elements of a Delay do not stand here: R112 computes them (notes/assumptions/16.md). -/
structure Defaults where
  /-- All kinds: the id sentinel (R23). -/
  id : Word
  /-- All kinds: the active flag (R23). -/
  active : Bool
  /-- `BOOST` (R25). -/
  volume : Word
  /-- `DISTORTION` (R26). -/
  clipThreshold : Word
  maxInput : Word
  /-- `FUZZ` (R27). -/
  effectValue : Word
  maxOut : Word
  /-- `TREMOLO` (R28). -/
  tremoloDurationMs : Word
  depthPercent : Word
  tremoloSampleRate : Word
  counter : Word
  dir : Bool
  /-- `DELAY` (R29). -/
  delayDurationMs : Word
  depth : Word
  feedback : Word
  delaySampleRate : Word
  /-- `ADSRGAIN` (R30). -/
  boostFactor : Word
  /-- `PITCHSHIFT` (R31). -/
  shiftRatio : Word
  /-- `COMP_SK` and `COMP_LOG` (R32). -/
  compSampleRate : Word
  attackMs : Word
  releaseMs : Word
  thresholdPercent : Word
  ratio : Word
  currentGain : Word
  targetGain : Word
  deriving DecidableEq, Repr

/-- The arguments of a model (R5, R43) other than `NSLOT`, which is the number of slots the state holds.
`delayCap` is a 32-bit word because it bounds the 32-bit register `LEN` (DEDUCED,
notes/assumptions/6.md, safe), and `gainFrac` is at most 30 because the gain registers are
`UQ2.GAIN_FRAC` words of 32 bits (DEDUCED, notes/assumptions/7.md, safe). -/
structure Config where
  /-- `DELAY_CAP`, elements of delay memory per slot. -/
  delayCap : Word
  /-- `GAIN_FRAC`, fraction bits of the gain registers. -/
  gainFrac : Fin 31
  /-- `ROUND`. -/
  rounding : Rounding
  /-- `KNEE_S[0..100]` (R216), entry `n` at place `n`. -/
  kneeS : List Word
  /-- `LOGTHR[1..99]` (R218), entry `p` at place `p - 1`. -/
  logThr : List Word
  /-- The construction defaults (R42). -/
  defaults : Defaults
  deriving DecidableEq, Repr

/-- FREE VALUE (R200, U10; notes/assumptions/3.md): the word the envelope generator answers to the `n`-th
draw of a run. Nothing constrains it. -/
opaque Config.envTick : Nat → Word

/-- FREE VALUE (R202, U10; notes/assumptions/3.md): the sample the ring buffer answers to the `n`-th draw
of a run. Nothing constrains it. -/
opaque Config.rbRead : Nat → Sample

end Sys2Proof
end

