-- ==== Sys2Proof/Machine/Arith.lean ====
section
/-! DEFINITION. The exact arithmetic of the effects: the one conversion of an exact quotient to an integer
(00_scope.md R8, 41_process_static.md R144), and the saturation primitives `clip` (R142, R143). -/

namespace Sys2Proof.Machine

/-- The conversion of the exact quotient `a / b` to an integer, `b != 0`: `tdiv(a, b)` of R8 with the default
rounding, `floor(a / b)` with the other value of the argument `ROUND`. -/
def quot (m : Rounding) (a b : Int) : Int :=
  match m with
  | .truncate => a.tdiv b
  | .floor => a.fdiv b

/-- `clip(v, L, R)` (R142). -/
def clip3 (v l r : Int) : Int :=
  if v > l then r else if v < -l then -r else v

/-- `clip(v)`, which is `clip(v, 32767, 32767)` (R143). -/
def clip (v : Int) : Int := clip3 v 32767 32767

/-- `GAIN_ONE = 2^GAIN_FRAC` (R5, R9). -/
def gainOne (c : Config) : Nat := 2 ^ c.gainFrac.val

/-- `clip(tdiv(G * x, GAIN_ONE))`: a sample scaled by a gain (R223, R224). -/
def applyGain (c : Config) (g : Nat) (x : Int) : Int :=
  clip (quot c.rounding (g * x) (gainOne c))

end Sys2Proof.Machine
end

