-- ==== Sys2Proof/Machine/Rom.lean ====
section
/-! DEFINITION. The default values of the model's arguments (00_scope.md R5): the two ROM tables as
45_compressor.md R216 and R218 print them, the construction defaults of 10_state.md R42, `NSLOT`,
`DELAY_CAP`, `GAIN_FRAC` and `ROUND`. -/

namespace Sys2Proof.Machine

/-- `KNEE_S[0..49]`, ten entries a row (R216). -/
def kneeLow : List Word :=
  [0, 16, 65, 145, 258, 403, 580, 789, 1029, 1301] ++
  [1604, 1937, 2301, 2695, 3119, 3571, 4053, 4563, 5101, 5666] ++
  [6258, 6876, 7520, 8188, 8881, 9598, 10337, 11098, 11881, 12684] ++
  [13507, 14350, 15210, 16088, 16982, 17892, 18816, 19754, 20705, 21668] ++
  [22642, 23626, 24619, 25620, 26628, 27642, 28661, 29684, 30710, 31739]

/-- `KNEE_S[50..100]` (R216). -/
def kneeHigh : List Word :=
  [32768, 33797, 34826, 35852, 36875, 37894, 38908, 39916, 40917, 41910] ++
  [42894, 43868, 44831, 45782, 46720, 47644, 48554, 49448, 50326, 51186] ++
  [52029, 52852, 53655, 54438, 55199, 55938, 56655, 57348, 58016, 58660] ++
  [59278, 59870, 60435, 60973, 61483, 61965, 62417, 62841, 63235, 63599] ++
  [63932, 64235, 64507, 64747, 64956, 65133, 65278, 65391, 65471, 65520] ++
  [65536]

/-- The ROM table `KNEE_S[0..100]` (R216). -/
def kneeTable : List Word := kneeLow ++ kneeHigh

/-- `LOGTHR[1..49]`, the first row without its missing entry 0 (R218). -/
def logLow : List Word :=
  [143, 288, 433, 581, 730, 881, 1033, 1187, 1342] ++
  [1499, 1658, 1819, 1982, 2146, 2313, 2481, 2652, 2824, 2999] ++
  [3176, 3355, 3536, 3719, 3906, 4094, 4285, 4479, 4675, 4874] ++
  [5076, 5281, 5488, 5699, 5913, 6130, 6351, 6575, 6803, 7034] ++
  [7270, 7509, 7752, 7999, 8251, 8508, 8769, 9035, 9306, 9582]

/-- `LOGTHR[50..99]` (R218). -/
def logHigh : List Word :=
  [9864, 10152, 10445, 10745, 11051, 11364, 11683, 12011, 12345, 12688] ++
  [13040, 13400, 13770, 14149, 14539, 14940, 15352, 15777, 16215, 16667] ++
  [17134, 17616, 18116, 18633, 19170, 19728, 20309, 20915, 21547, 22210] ++
  [22904, 23634, 24403, 25217, 26079, 26998, 27980, 29034, 30173, 31412] ++
  [32768, 34267, 35944, 37844, 40038, 42632, 45808, 49902, 55672, 65536]

/-- The ROM table `LOGTHR[1..99]` (R218). -/
def logTable : List Word := logLow ++ logHigh

/-- The construction defaults of R42 for the given `GAIN_FRAC`: both gains are `GAIN_ONE`. -/
def standardDefaults (gainFrac : Fin 31) : Defaults where
  id := 0xFFFFFFFF
  active := true
  volume := 0x00010000
  clipThreshold := 4990
  maxInput := 6500
  effectValue := 0x00068000
  maxOut := 300
  tremoloDurationMs := 2000
  depthPercent := 50
  tremoloSampleRate := 44100
  counter := 0
  dir := false
  delayDurationMs := 1000
  depth := 0x00008000
  feedback := 0x00010000
  delaySampleRate := 44100
  boostFactor := 0x00010000
  shiftRatio := 0x00010000
  compSampleRate := 44100
  attackMs := 10
  releaseMs := 100
  thresholdPercent := 50
  ratio := 0x00020000
  currentGain := BitVec.ofNat 32 (2 ^ gainFrac.val)
  targetGain := BitVec.ofNat 32 (2 ^ gainFrac.val)

/-- The default arguments of R5: `DELAY_CAP = 1048576`, `GAIN_FRAC = 30`, truncation, the printed
tables. -/
def standardConfig : Config where
  delayCap := 1048576
  gainFrac := 30
  rounding := .truncate
  kneeS := kneeTable
  logThr := logTable
  defaults := standardDefaults 30

/-- The default `NSLOT` of R5. -/
def standardNslot : Nat := 8

end Sys2Proof.Machine
end

