-- ==== Sys2Proof/Machine/State.lean ====
section
/-! DEFINITION. The state of the AFX unit (10_state.md R20) as plain data, what the host side of the port
holds (R22, R80), why a step can stop, and the state after reset (R41, R271). -/

namespace Sys2Proof.Machine

/-- The five status codes of R251; codes 5 to 15 are never returned. -/
inductive Status where
  | ok
  | errIllegal
  | errSlot
  | errEmpty
  | errReg
  deriving DecidableEq, Repr

/-- A response of R80: the status and the 32-bit `rdata`. -/
structure Response where
  status : Status
  rdata : Word
  deriving DecidableEq, Repr

/-- The activity of the two collaborator ports, slot index first (44_wrappers.md R200, R202). A draw stands in the
trace with the value the collaborator answered (DESIGN CHOICE, notes/assumptions/4.md, safe). -/
inductive Event where
  /-- `ENV_NEW(i)`. -/
  | envNew (i : Nat)
  /-- `ENV_CLONE(i, j)`. -/
  | envClone (i j : Nat)
  /-- The draw `ENV_TICK(i)` and the word it returned. -/
  | envTick (i : Nat) (word : Word)
  /-- `RB_NEW(i)`. -/
  | rbNew (i : Nat)
  /-- `RB_CLONE(i, j)`. -/
  | rbClone (i j : Nat)
  /-- `RB_SETINC(i, w)`. -/
  | rbSetInc (i : Nat) (w : Word)
  /-- `RB_WRITE(i, x)`. -/
  | rbWrite (i : Nat) (x : Sample)
  /-- The draw `RB_READ(i)` and the sample it returned. -/
  | rbRead (i : Nat) (y : Sample)
  deriving DecidableEq, Repr

/-- One listed element of a delay memory: its index and the sample it holds. The unit has no byte address
(R62): the smallest unit of storage is one 16-bit sample. -/
abbrev Cell := Nat × Sample

/-- The delay memory of one slot (R33), sparse: indexes strictly rising and no listed element 0. An element that is not
listed holds 0, which is what the zero-fill of every resize and `CONSTRUCT` leaves there (R75, R182; DEDUCED,
notes/assumptions/9.md, safe). -/
abbrev Memory := List Cell

/-- The registers of a `DISTORTION` slot (R26). -/
structure DistortionRegs where
  clipThreshold : Word
  maxInput : Word
  deriving DecidableEq, Repr

/-- The registers of a `FUZZ` slot (R27). -/
structure FuzzRegs where
  effectValue : Word
  maxOut : Word
  deriving DecidableEq, Repr

/-- The stored registers of a `TREMOLO` slot (R28); `dir` is true when counting down. -/
structure TremoloRegs where
  durationMs : Word
  depthPercent : Word
  sampleRate : Word
  counter : Word
  dir : Bool
  deriving DecidableEq, Repr

/-- The registers and the delay memory of a `DELAY` slot (R29, R33). -/
structure DelayRegs where
  durationMs : Word
  depth : Word
  feedback : Word
  sampleRate : Word
  len : Word
  cursor : Word
  mem : Memory
  deriving DecidableEq, Repr

/-- The registers of a `COMP_SK` or `COMP_LOG` slot (R32). -/
structure CompRegs where
  sampleRate : Word
  attackMs : Word
  releaseMs : Word
  thresholdPercent : Word
  ratio : Word
  currentGain : Word
  targetGain : Word
  deriving DecidableEq, Repr

/-- What a slot holds according to its kind (R24 to R32), a tagged union: the two compressor designs
are distinct (R230). -/
inductive Effect where
  | boost (volume : Word)
  | distortion (r : DistortionRegs)
  | fuzz (r : FuzzRegs)
  | tremolo (r : TremoloRegs)
  | delay (r : DelayRegs)
  | adsrGain (boostFactor : Word)
  | pitchShift (shiftRatio : Word)
  | compSk (r : CompRegs)
  | compLog (r : CompRegs)
  deriving DecidableEq, Repr

/-- One effect instance: the common fields `id` and `active` of R23 and the fields of its kind. -/
structure EffectUnit where
  id : Word
  active : Bool
  effect : Effect
  deriving DecidableEq, Repr

/-- A slot: `none` is `EMPTY`, which carries nothing (R24, R41; the representation R271 recommends). -/
abbrev Slot := Option EffectUnit

/-- The machine. The first five fields after `config` are the unit's whole state (R20). `config` is the model's own
field and no step writes it: the arguments of R5 (DESIGN CHOICE, notes/assumptions/2.md, safe). The rest is the host
side of the port (notes/assumptions/17.md): the request list and the host's index into it (R22), the responses given
(R80), the event trace (R14); and `draws`, the model's own counter of the draws made, which numbers the free values (R14,
notes/assumptions/3.md). -/
structure State where
  config : Config
  /-- `S[0]` to `S[NSLOT-1]` (R20 a); `NSLOT` is the length (notes/assumptions/8.md). -/
  slots : List Slot
  /-- `pair[0]` (R34). -/
  pair0 : Sample
  /-- `pair[1]` (R34). -/
  pair1 : Sample
  /-- `engaged` (R35). -/
  engaged : Bool
  /-- `first_err` (R36). -/
  firstErr : Status
  /-- The host's list of requests (R22). -/
  program : List Request
  /-- The host's index into that list, the next request to present (R22). -/
  hostIndex : Nat
  /-- The responses given, one per command, oldest first (R80). -/
  responses : List Response
  /-- The event trace, oldest first (R14). -/
  events : List Event
  /-- How many draws the run has made: the model's own field. -/
  draws : Nat
  deriving DecidableEq, Repr

/-- Why a step can stop with a fault. No state that meets the invariant of R40 raises either, so the
unit itself never stops (R250). -/
inductive Fault where
  /-- Raised by `PROCESS` on a `DELAY` slot whose `CURSOR` is not below `LEN >= 1`: there is no such element
  (R12, R66; DEDUCED, notes/assumptions/10.md). Safe: only states that break R40(c) raise it. -/
  | elementOutOfRange
  /-- Raised by `PROCESS` on a compressor slot that forms an index its ROM table does not have (R60, R217).
  DEDUCED, notes/assumptions/11.md. Safe: only states or configurations that break R40(a) or the table sizes of R216
  and R218 raise it. -/
  | romIndexOutOfRange
  deriving DecidableEq, Repr

/-- Why a step can be refused. -/
inductive Refusal where
  /-- Raised by an arm of `exec` whose instruction has no meaning yet; no arm raises it now. Safe. -/
  | notModelled (mnemonic : String)
  deriving DecidableEq, Repr

/-- The state after reset of a unit with the given arguments (R41, R271): every slot `EMPTY`, the pair 0,
not engaged, no error. The host has presented nothing yet. -/
def State.resetWith (c : Config) (nslot : Nat) : State where
  config := c
  slots := List.replicate nslot none
  pair0 := 0
  pair1 := 0
  engaged := false
  firstErr := .ok
  program := []
  hostIndex := 0
  responses := []
  events := []
  draws := 0

/-- The machine right after reset, with the default arguments of R5 (R41, R271). -/
def State.reset : State := State.resetWith standardConfig standardNslot

end Sys2Proof.Machine
end

