-- ==== Sys2Proof/Machine/Flags.lean ====
section
/-! DEFINITION. The flag computations. The unit has no condition codes (10_state.md R37): its flags are the
sticky status `first_err` (60_exceptions.md R255), the global `engaged` (45_compressor.md R225) and the
Tremolo's direction (42_tremolo.md R163). -/

namespace Sys2Proof.Machine

/-- The 4-bit code of a status (R251). -/
def Status.code : Status → BitVec 4
  | .ok => 0
  | .errIllegal => 1
  | .errSlot => 2
  | .errEmpty => 3
  | .errReg => 4

/-- `first_err` after a command that ends with `st` (R255). -/
def stickyErr (firstErr st : Status) : Status :=
  if st ≠ .ok ∧ firstErr = .ok then st else firstErr

/-- `engaged` after a compressor step that left the gain `g`: set below 0.9, cleared above 0.95, kept
between (R225). -/
def engagedAfter (c : Config) (g : Nat) (engaged : Bool) : Bool :=
  if 10 * g < 9 * gainOne c then true
  else if 20 * g > 19 * gainOne c then false
  else engaged

/-- The direction the Tremolo counter `ctr` moves in, settled before the move, `h` the half period: true
is down (R163). -/
def directionAt (ctr h : Nat) (dir : Bool) : Bool :=
  if ctr ≥ h then true else if ctr = 0 then false else dir

/-- `rdata` of `GETSTATUS`: bit 0 `engaged`, bits 7:4 `first_err` (R86, R127). -/
def statusWord (engaged : Bool) (firstErr : Status) : Word :=
  (BitVec.ofBool engaged).zeroExtend 32 + ((firstErr.code.zeroExtend 32) <<< 4)

end Sys2Proof.Machine
end

