-- ==== Sys2Proof/Machine/Ops.lean ====
section
/-! DEFINITION. The named operations over the state: the delay memory (00_scope.md R12, R75), slots, port events and
draws (R14), the response every command ends with (R13), and what this unit has in the place of a trap:
`raise`, a response with an error status that changes nothing but `first_err` (60_exceptions.md R250,
R254, R255). There is no return from it (R259). -/

namespace Sys2Proof.Machine

/-- What a command ends in. -/
abbrev Result := Host.Outcome State Fault Refusal

/-! ## Delay memory -/

/-- The sample of element `k`: the listed one, else 0 (R75). -/
def Memory.read : Memory → Nat → Sample
  | [], _ => 0
  | (a, v) :: m, k => if a = k then v else Memory.read m k

/-- Stores `v` in element `k` and keeps the canonical form: the indexes rise strictly and 0 is not listed. -/
def Memory.write : Memory → Nat → Sample → Memory
  | [], k, v => if v = 0 then [] else [(k, v)]
  | (a, u) :: m, k, v =>
    if k < a then (if v = 0 then (a, u) :: m else (k, v) :: (a, u) :: m)
    else if k = a then (if v = 0 then m else (k, v) :: m)
    else (a, u) :: Memory.write m k v

/-- `MemFill` (R12, R75): every element that comes into use holds 0. -/
def Memory.zero : Memory := []

/-- Every listed index is above `lo`, strictly rising, and no listed sample is 0. -/
def Memory.wfFrom : Nat → Memory → Bool
  | _, [] => true
  | lo, (a, v) :: m => decide (lo ≤ a) && decide (v ≠ 0) && Memory.wfFrom (a + 1) m

/-- The canonical form of a delay memory. -/
def Memory.wf (m : Memory) : Bool := Memory.wfFrom 0 m

/-- `MemRead(i, k)` on the memory of a Delay slot: defined only for `0 <= k < LEN` (R12). -/
def DelayRegs.memRead (d : DelayRegs) (k : Nat) : Option Sample :=
  if k < d.len.toNat then some (Memory.read d.mem k) else none

/-! ## Responses -/

/-- `respond(status, rdata)` of R13, which ends every command: the response is given, `first_err` is updated
(R255), and the host's index advances by 1 whatever the status (R22). -/
def State.respond (s : State) (st : Status) (rdata : Word) : State :=
  { s with
    firstErr := stickyErr s.firstErr st
    hostIndex := s.hostIndex + 1
    responses := s.responses ++ [⟨st, rdata⟩] }

/-- `respond(OK, rdata)`. -/
def State.finish (s : State) (rdata : Word) : Result := .next (s.respond .ok rdata)

/-- `raise ERR_x` of R13: `respond(ERR_x, 0)` and nothing else (R250, R254). -/
def State.raise (s : State) (st : Status) : Result := .next (s.respond st 0)

/-! ## Slots -/

/-- `NSLOT` (R5): how many slots the bank has. -/
def State.nslot (s : State) : Nat := s.slots.length

/-- Writes slot `i`. -/
def State.setSlot (s : State) (i : Nat) (v : Slot) : State := { s with slots := s.slots.set i v }

/-- Writes the kind's own fields of slot `i`, whose instance is `u`, and leaves its `id` and `active`. -/
def State.setEffect (s : State) (i : Nat) (u : EffectUnit) (e : Effect) : State :=
  s.setSlot i (some { u with effect := e })

/-- Check 2 of R110: the slot exists. -/
def State.checkSlot (s : State) (i : Nat) (run : Result) : Result :=
  if i < s.nslot then run else s.raise .errSlot

/-- Checks 2 and 3 of R110: the slot exists and holds an instance, which `run` gets. -/
def State.withUnit (s : State) (i : Nat) (run : EffectUnit → Result) : Result :=
  match s.slots[i]? with
  | none => s.raise .errSlot
  | some none => s.raise .errEmpty
  | some (some u) => run u

/-! ## Collaborator ports -/

/-- `emit EV(args)` of R14, one event after the other (R206). -/
def State.emit (s : State) (evs : List Event) : State := { s with events := s.events ++ evs }

/-- A draw (R14): the trace gets it with its answer, and the next draw is another one. -/
def State.draw (s : State) (ev : Event) : State :=
  { s with events := s.events ++ [ev], draws := s.draws + 1 }

/-- The word the next `ENV_TICK` draw returns (R200): a free value. -/
def State.nextTick (s : State) : Word := Config.envTick s.draws

/-- The sample the next `RB_READ` draw returns (R202): a free value. -/
def State.nextRead (s : State) : Sample := Config.rbRead s.draws

/-! ## The port and the reset input -/

/-- The request the host presents next; none when its list is exhausted (R22). -/
def State.request (s : State) : Option Request := s.program[s.hostIndex]?

/-- Check 1 of R110 failed: the word selects no row of the opcode map (R88). -/
def State.illegal (s : State) : Result := s.raise .errIllegal

/-- Between commands the unit holds its state and does nothing (R266): a step with no request presented
(DESIGN CHOICE, notes/assumptions/1.md, safe). -/
def State.idle (s : State) : Result := .next s

/-- The host puts one request on the port as the whole of its list (R22; notes/assumptions/13.md). -/
def State.present (s : State) (r : Request) : State := { s with program := [r], hostIndex := 0 }

/-- What the reset input does to a running unit (R270, R271): the unit's state is as after reset. The host
side, the arguments and the collaborators are outside the unit and stay. It is no step: the input is the
platform's (notes/assumptions/12.md). -/
def State.assertReset (s : State) : State :=
  { s with
    slots := List.replicate s.nslot none
    pair0 := 0
    pair1 := 0
    engaged := false
    firstErr := .ok }

end Sys2Proof.Machine
end

