-- ==== Sys2Proof/Machine/Operands.lean ====
section
/-! DEFINITION. Every operand form: the register map of each kind with access rights (10_state.md R25 to
R32), the reading of a register (R123), the write clamp (40_management.md R120), the raw write, the derived
values (R38), and how samples and results are packed into `rdata` (30_encoding.md R86). -/

namespace Sys2Proof.Machine

/-! ## Results -/

/-- `enc_32(y)` for an output sample or an element (R86). -/
def sampleResult (y : Int) : Word := encWord y

/-- The pair as `LINKRD` returns it: `pair[1]` above `pair[0]` (R86, R126). -/
def pairWord (p0 p1 : Sample) : Word := (p1 ++ p0 : BitVec (16 + 16))

/-! ## Registers -/

/-- The register names of R25 to R32. -/
inductive Reg where
  | volume
  | clipThreshold
  | maxInput
  | effectValue
  | maxOut
  | durationMs
  | depthPercent
  | sampleRate
  | rateCountHalf
  | counter
  | dir
  | depth
  | feedback
  | len
  | cursor
  | boostFactor
  | shiftRatio
  | attackMs
  | releaseMs
  | thresholdPercent
  | ratio
  | currentGain
  | targetGain
  deriving DecidableEq, Repr

/-- Access rights: `RW` host may read and write, `RO` host may read only. -/
inductive Access where
  | rw
  | ro
  deriving DecidableEq, Repr

/-- The register map of a kind, in index order (R25 to R32). -/
def regMap : Kind → List (Reg × Access)
  | .boost => [(.volume, .rw)]
  | .distortion => [(.clipThreshold, .rw), (.maxInput, .rw)]
  | .fuzz => [(.effectValue, .rw), (.maxOut, .rw)]
  | .tremolo => [(.durationMs, .rw), (.depthPercent, .rw), (.sampleRate, .rw), (.rateCountHalf, .ro),
      (.counter, .ro), (.dir, .ro)]
  | .delay => [(.durationMs, .rw), (.depth, .rw), (.feedback, .rw), (.sampleRate, .rw), (.len, .ro),
      (.cursor, .ro)]
  | .adsrGain => [(.boostFactor, .rw)]
  | .pitchShift => [(.shiftRatio, .rw)]
  | .compSk => [(.sampleRate, .rw), (.attackMs, .rw), (.releaseMs, .rw), (.thresholdPercent, .rw),
      (.ratio, .rw), (.currentGain, .ro), (.targetGain, .ro)]
  | .compLog => [(.sampleRate, .rw), (.attackMs, .rw), (.releaseMs, .rw), (.thresholdPercent, .rw),
      (.ratio, .rw), (.currentGain, .ro), (.targetGain, .ro)]

/-- The kind of what a slot holds (R24). -/
def Effect.kind : Effect → Kind
  | .boost _ => .boost
  | .distortion _ => .distortion
  | .fuzz _ => .fuzz
  | .tremolo _ => .tremolo
  | .delay _ => .delay
  | .adsrGain _ => .adsrGain
  | .pitchShift _ => .pitchShift
  | .compSk _ => .compSk
  | .compLog _ => .compLog

/-! ## Derived values -/

/-- `rate_count_half` of a Tremolo, `H` (R161). -/
def TremoloRegs.half (t : TremoloRegs) : Nat :=
  min (t.sampleRate.toNat * t.durationMs.toNat / 2000) (2 ^ 32 - 1)

/-- `target_len` of a Delay, `N` (R181). -/
def DelayRegs.targetLen (c : Config) (d : DelayRegs) : Nat :=
  min (d.sampleRate.toNat * d.durationMs.toNat / 1000) c.delayCap.toNat

/-! ## Reading a register -/

/-- The stored words of a compressor in index order (R32). -/
def CompRegs.words (r : CompRegs) : List Word :=
  [r.sampleRate, r.attackMs, r.releaseMs, r.thresholdPercent, r.ratio, r.currentGain, r.targetGain]

/-- Every register of an instance as `GETPARAM` returns it, in index order (R25 to R32, R86, R123):
`RATE_COUNT_HALF` is derived, `DIR` is one bit in bit 0. -/
def Effect.regWords : Effect → List Word
  | .boost v => [v]
  | .distortion r => [r.clipThreshold, r.maxInput]
  | .fuzz r => [r.effectValue, r.maxOut]
  | .tremolo t => [t.durationMs, t.depthPercent, t.sampleRate, BitVec.ofNat 32 t.half, t.counter,
      (BitVec.ofBool t.dir).zeroExtend 32]
  | .delay d => [d.durationMs, d.depth, d.feedback, d.sampleRate, d.len, d.cursor]
  | .adsrGain b => [b]
  | .pitchShift w => [w]
  | .compSk r => r.words
  | .compLog r => r.words

/-! ## Writing a register -/

/-- `min(w, hi)` on unsigned words. -/
def wmin (w hi : Word) : Word := if w.toNat ≤ hi.toNat then w else hi

/-- `clamp(w, lo, hi)` on unsigned words. -/
def wclampBetween (lo w hi : Word) : Word := wmin (if w.toNat < lo.toNat then lo else w) hi

/-- The write clamp of R120; registers not listed there are stored unchanged. -/
def wclamp (k : Kind) (r : Reg) (w : Word) : Word :=
  match k, r with
  | .distortion, .clipThreshold => wmin w 32767
  | .distortion, .maxInput => wmin w 32767
  | .fuzz, .maxOut => wmin w 32767
  | .tremolo, .depthPercent => wmin w 100
  | .delay, .depth => wmin w 0x00010000
  | .delay, .feedback => wmin w 0x00010000
  | .compSk, .thresholdPercent => wmin w 100
  | .compLog, .thresholdPercent => wclampBetween 1 w 99
  | _, _ => w

/-- Stores a word in a `RW` register of a compressor (R32); the read-only ones are not written this way. -/
def CompRegs.put (r : CompRegs) (reg : Reg) (w : Word) : CompRegs :=
  match reg with
  | .sampleRate => { r with sampleRate := w }
  | .attackMs => { r with attackMs := w }
  | .releaseMs => { r with releaseMs := w }
  | .thresholdPercent => { r with thresholdPercent := w }
  | .ratio => { r with ratio := w }
  | _ => r

/-- Stores a word in a `RW` register of a Tremolo (R28). -/
def TremoloRegs.put (t : TremoloRegs) (reg : Reg) (w : Word) : TremoloRegs :=
  match reg with
  | .durationMs => { t with durationMs := w }
  | .depthPercent => { t with depthPercent := w }
  | .sampleRate => { t with sampleRate := w }
  | _ => t

/-- Stores a word in a `RW` register of a Delay (R29). -/
def DelayRegs.put (d : DelayRegs) (reg : Reg) (w : Word) : DelayRegs :=
  match reg with
  | .durationMs => { d with durationMs := w }
  | .depth => { d with depth := w }
  | .feedback => { d with feedback := w }
  | .sampleRate => { d with sampleRate := w }
  | _ => d

/-- Stores a word in a `RW` register of a Distortion (R26). -/
def DistortionRegs.put (d : DistortionRegs) (reg : Reg) (w : Word) : DistortionRegs :=
  match reg with
  | .clipThreshold => { d with clipThreshold := w }
  | .maxInput => { d with maxInput := w }
  | _ => d

/-- Stores a word in a `RW` register of a Fuzz (R27). -/
def FuzzRegs.put (f : FuzzRegs) (reg : Reg) (w : Word) : FuzzRegs :=
  match reg with
  | .effectValue => { f with effectValue := w }
  | .maxOut => { f with maxOut := w }
  | _ => f

/-- `S[i].REG <- w` for a `RW` register of the instance's kind (R119). -/
def Effect.put (e : Effect) (reg : Reg) (w : Word) : Effect :=
  match e with
  | .boost v => .boost (if reg = .volume then w else v)
  | .distortion r => .distortion (r.put reg w)
  | .fuzz r => .fuzz (r.put reg w)
  | .tremolo t => .tremolo (t.put reg w)
  | .delay d => .delay (d.put reg w)
  | .adsrGain b => .adsrGain (if reg = .boostFactor then w else b)
  | .pitchShift v => .pitchShift (if reg = .shiftRatio then w else v)
  | .compSk r => .compSk (r.put reg w)
  | .compLog r => .compLog (r.put reg w)

/-- The registers whose write has a side effect on a Tremolo or a Delay: `DURATION_MS` and `SAMPLERATE`
(R121 a, c). -/
def Reg.setsPeriod (r : Reg) : Bool := r == .durationMs || r == .sampleRate

end Sys2Proof.Machine
end

