-- ==== Sys2Proof/Machine/Link.lean ====
section
/-! DEFINITION. The host side of the stereo link and the status read: `LINKWR`, `LINKRD`, `GETSTATUS`
(40_management.md R125 to R127). -/

namespace Sys2Proof.Machine

/-- `LINKWR a, b` (R125): `engaged` is not touched. -/
def execLinkWr (a b : Sample) (s : State) : Result :=
  ({ s with pair0 := a, pair1 := b } : State).finish 0

/-- `LINKRD` (R126). -/
def execLinkRd (s : State) : Result := s.finish (pairWord s.pair0 s.pair1)

/-- `GETSTATUS` (R127): it does not clear `first_err`. -/
def execGetStatus (s : State) : Result := s.finish (statusWord s.engaged s.firstErr)

end Sys2Proof.Machine
end

