-- ==== Sys2Proof/Machine/Compressor.lean ====
section
/-! DEFINITION. The two compressors (45_compressor.md R210 to R226): level detector, the two gain curves in the
integer form of R232, smoothing, output, stereo link and engaged flag. The rational form of the curves stands
in Machine/Curve.lean. -/

namespace Sys2Proof.Machine

/-- The level detector: `abs(x)`, 0 to 32768 (R212). -/
def level (x : Sample) : Nat := x.toInt.natAbs

/-- `q(num, den)` of R232: the quotient in the gain format, clamped to `[0, GAIN_ONE]` and rounded down. -/
def gainQuot (c : Config) (num den : Int) : Nat :=
  if num ≥ den then gainOne c
  else if num ≤ 0 then 0
  else (num.toNat * gainOne c) / den.toNat

/-- `100 * lowerKnee`, `l` of R213. -/
def kneeLo (tp : Nat) : Nat := tp - 10

/-- `100 * upperKnee`, `h` of R213. -/
def kneeHi (tp : Nat) : Nat := tp + 10

/-- The knee position as a table index (R215): `floor(100 * p / (32767 * w))` with `p = 100a - 32767l` and
`w = h - l`. -/
def kneeIndex (tp a : Nat) : Nat :=
  100 * (100 * a - 32767 * kneeLo tp) / (32767 * (kneeHi tp - kneeLo tp))

/-- `E = 2^32 * er`, the effective ratio of R215 for the table entry `k`. -/
def effRatio (r : Nat) (k : Word) : Int := 4294967296 + ((r : Int) - 65536) * k.toNat

/-- The target gain of `COMP_SK` for the level `a` (R214, R215, R220, R221; integer form R232). `none` is a
table index that `KNEE_S` lacks. -/
def kneeTarget (c : Config) (regs : CompRegs) (a : Nat) : Option Nat :=
  let tp := regs.thresholdPercent.toNat
  let r := regs.ratio.toNat
  if a = 0 then some (gainOne c)
  else if 100 * a < 32767 * kneeLo tp then some (gainOne c)
  else if 100 * a > 32767 * kneeHi tp then
    if r = 0 then some (gainOne c)
    else some (gainQuot c (32767 * kneeHi tp * ((r : Int) - 65536) + 6553600 * a) (100 * r * a))
  else
    match c.kneeS[kneeIndex tp a]? with
    | none => none
    | some k =>
      let e := effRatio r k
      if e = 0 then some (gainOne c)
      else
        some (gainQuot c (32767 * kneeLo tp * e + 4294967296 * (100 * (a : Int) - 32767 * kneeLo tp))
          (100 * a * e))

/-- `LOGTHR[tp]`, which exists for `tp` in 1 to 99 (R217, R218). -/
def logThreshold (c : Config) (tp : Nat) : Option Word :=
  if tp = 0 then none else c.logThr[tp - 1]?

/-- The target gain of `COMP_LOG` for the level `a` (R219, R220, R221; integer form R232). `none` is a
threshold that `LOGTHR` lacks. -/
def logTarget (c : Config) (regs : CompRegs) (a : Nat) : Option Nat :=
  let r := regs.ratio.toNat
  if a = 0 then some (gainOne c)
  else
    match logThreshold c regs.thresholdPercent.toNat with
    | none => none
    | some w =>
      let t := w.toNat
      if 65536 * a < 32767 * t then some (gainOne c)
      else if r = 0 then some (gainOne c)
      else some (gainQuot c (32767 * t * ((r : Int) - 65536) + 4294967296 * a) (65536 * r * a))

/-- The factor `K` of the smoothing coefficient `1000 / K` (R211, R222): attack when the gain must fall, release
otherwise. -/
def smoothK (regs : CompRegs) (tg : Nat) : Nat :=
  if tg < regs.currentGain.toNat then regs.sampleRate.toNat * regs.attackMs.toNat
  else regs.sampleRate.toNat * regs.releaseMs.toNat

/-- The one-pole step from gain `g` toward `tg` with the factor `k`, clamped to `[0, GAIN_ONE]` (R222). -/
def smoothGain (c : Config) (g tg k : Nat) : Nat :=
  let moved : Int :=
    if k ≤ 1000 then tg else g + quot c.rounding (1000 * ((tg : Int) - g)) k
  (min (max moved 0) (gainOne c)).toNat

/-- `CURRENT_GAIN` after the attack or release step toward `tg` (R222). -/
def nextGain (c : Config) (regs : CompRegs) (tg : Nat) : Nat :=
  smoothGain c regs.currentGain.toNat tg (smoothK regs tg)

/-- The registers of a compressor after one sample whose target gain is `tg` (R226 steps 3 and 4). -/
def compAdvance (c : Config) (regs : CompRegs) (tg : Nat) : CompRegs :=
  { regs with
    targetGain := BitVec.ofNat 32 tg
    currentGain := BitVec.ofNat 32 (nextGain c regs tg) }

/-- The stereo link and the flag after a sample whose new gain is `g` (R224, R225; R226 steps 6 and 7). -/
def State.linkScale (s : State) (g : Nat) : State :=
  { s with
    pair0 := encSample (applyGain s.config g s.pair0.toInt)
    pair1 := encSample (applyGain s.config g s.pair1.toInt)
    engaged := engagedAfter s.config g s.engaged }

/-- A compressor after `CONSTRUCT` (R32, R42). -/
def compNew (c : Config) : CompRegs where
  sampleRate := c.defaults.compSampleRate
  attackMs := c.defaults.attackMs
  releaseMs := c.defaults.releaseMs
  thresholdPercent := c.defaults.thresholdPercent
  ratio := c.defaults.ratio
  currentGain := c.defaults.currentGain
  targetGain := c.defaults.targetGain

end Sys2Proof.Machine
end

