-- ==== Sys2Proof/Machine/Delay.lean ====
section
/-! DEFINITION. The Delay: the circular-buffer echo line (43_delay.md R180 to R185). -/

namespace Sys2Proof.Machine

/-- The zero-fill of a resize: `LEN` elements of 0, the cursor at 0 (R182). -/
def delayFill (d : DelayRegs) (n : Nat) : DelayRegs :=
  { d with mem := Memory.zero, cursor := 0, len := BitVec.ofNat 32 n }

/-- The resize step: nothing unless the target length differs from `LEN` (R182). -/
def delayResize (c : Config) (d : DelayRegs) : DelayRegs :=
  if d.targetLen c = d.len.toNat then d else delayFill d (d.targetLen c)

/-- A Delay after `CONSTRUCT`: the defaults, then the fill, which always runs (R112, R182). -/
def delayNew (c : Config) : DelayRegs :=
  let d : DelayRegs :=
    { durationMs := c.defaults.delayDurationMs
      depth := c.defaults.depth
      feedback := c.defaults.feedback
      sampleRate := c.defaults.delaySampleRate
      len := 0
      cursor := 0
      mem := Memory.zero }
  delayFill d (d.targetLen c)

/-- The dry and wet mix of the input `x` and the delayed sample `z` (R183 line 4; R185 is `z = 0`). -/
def delayMix (m : Rounding) (d : DelayRegs) (x z : Int) : Int :=
  clip (quot m ((65536 - (d.depth.toNat : Int)) * x + d.depth.toNat * z) 65536)

/-- The feedback write (R183 line 5). -/
def delayFeedback (m : Rounding) (d : DelayRegs) (x z : Int) : Int :=
  clip (quot m (d.feedback.toNat * (z + x)) 65536)

/-- The cursor advance (R184). -/
def cursorNext (cursor len : Word) : Word :=
  if cursor.toNat + 1 ≥ len.toNat then 0 else cursor + 1

/-- One sample of an active Delay: the output and the registers after it (R183, R185). `none` is a cursor
that names no element, which R40(c) rules out (R66). -/
def delayStep (m : Rounding) (d : DelayRegs) (x : Sample) : Option (Int × DelayRegs) :=
  if d.len = 0 then some (delayMix m d x.toInt 0, d)
  else
    match d.memRead d.cursor.toNat with
    | none => none
    | some z =>
      some (delayMix m d x.toInt z.toInt,
        { d with
          mem := Memory.write d.mem d.cursor.toNat (encSample (delayFeedback m d x.toInt z.toInt))
          cursor := cursorNext d.cursor d.len })

end Sys2Proof.Machine
end

