-- ==== Sys2Proof/Machine/Tremolo.lean ====
section
/-! DEFINITION. The Tremolo: the triangle-wave modulator (42_tremolo.md R160 to R165). -/

namespace Sys2Proof.Machine

/-- The output of an active Tremolo, from the counter before it moves (R162, first line of the pseudocode),
and with `H = 0` the unmodulated part alone (R164). -/
def tremoloSample (m : Rounding) (t : TremoloRegs) (x : Sample) : Int :=
  let p : Int := t.depthPercent.toNat
  let h : Int := t.half
  if t.half = 0 then clip (quot m (x.toInt * (100 - p)) 100)
  else clip (quot m (x.toInt * ((100 - p) * h + p * t.counter.toNat)) (100 * h))

/-- The counter step: the direction is settled first, then the counter moves by one (R163); with `H = 0`
the counter rests at 0 and the direction stays (R164). -/
def tremoloAdvance (t : TremoloRegs) : TremoloRegs :=
  if t.half = 0 then { t with counter := 0 }
  else
    let dir := directionAt t.counter.toNat t.half t.dir
    { t with dir := dir, counter := if dir then t.counter - 1 else t.counter + 1 }

/-- The side effect of a write of `DURATION_MS` or `SAMPLERATE`: the counter is lowered to the new half
period if it exceeds it (R121 a, R165). -/
def tremoloLower (t : TremoloRegs) : TremoloRegs :=
  if t.counter.toNat ≤ t.half then t else { t with counter := BitVec.ofNat 32 t.half }

/-- A Tremolo after `CONSTRUCT` (R28, R42). -/
def tremoloNew (d : Defaults) : TremoloRegs where
  durationMs := d.tremoloDurationMs
  depthPercent := d.depthPercent
  sampleRate := d.tremoloSampleRate
  counter := d.counter
  dir := d.dir

end Sys2Proof.Machine
end

