-- ==== Sys2Proof/Machine/Management.lean ====
section
/-! DEFINITION. The management commands `NOP`, `CONSTRUCT`, `DESTROY`, `DUP`, `SETACTIVE`, `GETACTIVE`, `SETID`,
`GETID` (40_management.md R111 to R118). -/

namespace Sys2Proof.Machine

/-- `NOP` (R111). -/
def execNop (s : State) : Result := s.finish 0

/-- The kind's own fields after `CONSTRUCT` (R42, R112). -/
def constructEffect (c : Config) : Kind → Effect
  | .boost => .boost c.defaults.volume
  | .distortion => .distortion ⟨c.defaults.clipThreshold, c.defaults.maxInput⟩
  | .fuzz => .fuzz ⟨c.defaults.effectValue, c.defaults.maxOut⟩
  | .tremolo => .tremolo (tremoloNew c.defaults)
  | .delay => .delay (delayNew c)
  | .adsrGain => .adsrGain c.defaults.boostFactor
  | .pitchShift => .pitchShift c.defaults.shiftRatio
  | .compSk => .compSk (compNew c)
  | .compLog => .compLog (compNew c)

/-- The instance `CONSTRUCT` makes (R42, R112). -/
def constructUnit (c : Config) (k : Kind) : EffectUnit where
  id := c.defaults.id
  active := c.defaults.active
  effect := constructEffect c k

/-- The events of `CONSTRUCT` on slot `i` (R112, R200, R202): the increment is the literal word of R112
(notes/assumptions/16.md). -/
def constructEvents (i : Nat) : Kind → List Event
  | .adsrGain => [.envNew i]
  | .pitchShift => [.rbNew i, .rbSetInc i 0x00010000]
  | .boost => []
  | .distortion => []
  | .fuzz => []
  | .tremolo => []
  | .delay => []
  | .compSk => []
  | .compLog => []

/-- `CONSTRUCT s<i>, KIND` (R112): whatever the slot held is discarded. -/
def execConstruct (i : Nat) (k : Kind) (s : State) : Result :=
  s.checkSlot i (((s.setSlot i (some (constructUnit s.config k))).emit (constructEvents i k)).finish 0)

/-- `DESTROY s<i>` (R113): an empty slot is no error, and no event is emitted. -/
def execDestroy (i : Nat) (s : State) : Result := s.checkSlot i ((s.setSlot i none).finish 0)

/-- The events of `DUP` from slot `i` to another slot `j` (R114, R205). -/
def dupEvents (i j : Nat) : Effect → List Event
  | .adsrGain _ => [.envClone i j]
  | .pitchShift w => [.rbClone i j, .rbSetInc j w]
  | .boost _ => []
  | .distortion _ => []
  | .fuzz _ => []
  | .tremolo _ => []
  | .delay _ => []
  | .compSk _ => []
  | .compLog _ => []

/-- `DUP s<i>, s<j>` (R114): a copy by value, running state and delay memory included; `i = j` changes
nothing. Both slots must exist before the source is looked at (R110). -/
def execDup (i j : Nat) (s : State) : Result :=
  s.checkSlot j
    (s.withUnit i fun u =>
      if i = j then s.finish 0
      else ((s.setSlot j (some u)).emit (dupEvents i j u.effect)).finish 0)

/-- `SETACTIVE s<i>, b` (R115). -/
def execSetActive (i : Nat) (b : Bool) (s : State) : Result :=
  s.withUnit i fun u => (s.setSlot i (some { u with active := b })).finish 0

/-- `GETACTIVE s<i>` (R116). -/
def execGetActive (i : Nat) (s : State) : Result :=
  s.withUnit i fun u => s.finish ((BitVec.ofBool u.active).zeroExtend 32)

/-- `SETID s<i>, n` (R117). -/
def execSetId (i : Nat) (n : Word) (s : State) : Result :=
  s.withUnit i fun u => (s.setSlot i (some { u with id := n })).finish 0

/-- `GETID s<i>` (R118). -/
def execGetId (i : Nat) (s : State) : Result := s.withUnit i fun u => s.finish u.id

end Sys2Proof.Machine
end

