-- ==== Sys2Proof/Machine/Params.lean ====
section
/-! DEFINITION. The parameter commands `SETPARAM`, `GETPARAM` and the debug read `BUFRD` (40_management.md R119 to
R124). -/

namespace Sys2Proof.Machine

/-- The side effect of `SETPARAM` inside the slot, after the register is written (R121 a, c, d). -/
def afterWrite (c : Config) (reg : Reg) : Effect → Effect
  | .tremolo t => .tremolo (if reg.setsPeriod then tremoloLower t else t)
  | .delay d => .delay (if reg.setsPeriod then delayResize c d else d)
  | .boost v => .boost v
  | .distortion r => .distortion r
  | .fuzz r => .fuzz r
  | .adsrGain b => .adsrGain b
  | .pitchShift w => .pitchShift w
  | .compSk r => .compSk r
  | .compLog r => .compLog r

/-- The event of `SETPARAM` on a `PITCHSHIFT` slot, with the word just stored (R121 b, R204). -/
def writeEvents (i : Nat) : Effect → List Event
  | .pitchShift w => [.rbSetInc i w]
  | .boost _ => []
  | .distortion _ => []
  | .fuzz _ => []
  | .tremolo _ => []
  | .delay _ => []
  | .adsrGain _ => []
  | .compSk _ => []
  | .compLog _ => []

/-- The kind's own fields after `SETPARAM` of the register `reg` with the operand `v`: the write clamp, the write,
the side effect (R119, R120, R121). -/
def writeParam (c : Config) (e : Effect) (reg : Reg) (v : Word) : Effect :=
  afterWrite c reg (e.put reg (wclamp e.kind reg v))

/-- `SETPARAM s<i>, REG, v` (R119). -/
def execSetParam (i r : Nat) (v : Word) (s : State) : Result :=
  s.withUnit i fun u =>
    match (regMap u.effect.kind)[r]? with
    | none => s.raise .errReg
    | some (_, .ro) => s.raise .errReg
    | some (reg, .rw) =>
      let e := writeParam s.config u.effect reg v
      ((s.setEffect i u e).emit (writeEvents i e)).finish 0

/-- `GETPARAM s<i>, REG` (R123). -/
def execGetParam (i r : Nat) (s : State) : Result :=
  s.withUnit i fun u =>
    match u.effect.regWords[r]? with
    | none => s.raise .errReg
    | some w => s.finish w

/-- The element `BUFRD` reads: there is one only on a Delay slot below `LEN` (R124). -/
def bufElement (k : Nat) : Effect → Option Sample
  | .delay d => d.memRead k
  | .boost _ => none
  | .distortion _ => none
  | .fuzz _ => none
  | .tremolo _ => none
  | .adsrGain _ => none
  | .pitchShift _ => none
  | .compSk _ => none
  | .compLog _ => none

/-- `BUFRD s<i>, k` (R124). -/
def execBufRd (i : Nat) (k : Word) (s : State) : Result :=
  s.withUnit i fun u =>
    match bufElement k.toNat u.effect with
    | none => s.raise .errReg
    | some z => s.finish (sampleResult z.toInt)

end Sys2Proof.Machine
end

