-- ==== Sys2Proof/Machine/Static.lean ====
section
/-! DEFINITION. The three transforms without running state: Boost, Distortion, Fuzz
(41_process_static.md R146 to R148). -/

namespace Sys2Proof.Machine

/-- Boost (R146): `clip(tdiv(V * x, 65536))`. -/
def boostSample (m : Rounding) (volume : Word) (x : Sample) : Int :=
  clip (quot m (volume.toInt * x.toInt) 65536)

/-- Distortion (R147): `clip(x, CLIPTHRESHOLD, MAXINPUT)`. -/
def distortSample (r : DistortionRegs) (x : Sample) : Int :=
  clip3 x.toInt r.clipThreshold.toNat r.maxInput.toNat

/-- Fuzz, the linear map of the last line of R148: `clip` of the exact map
`-M + (v + 32768) * 2M / 65535`, converted once. -/
def fuzzMap (m : Rounding) (v maxOut : Int) : Int :=
  clip (quot m ((v + 32768) * 2 * maxOut - 65535 * maxOut) 65535)

/-- Fuzz (R148): two multiplications by `EFFECTVALUE`, the first saturated, then the linear map. -/
def fuzzSample (m : Rounding) (r : FuzzRegs) (x : Sample) : Int :=
  let e := r.effectValue.toInt
  let y1 := clip (quot m (e * x.toInt) 65536)
  let v := quot m (e * y1) 65536
  fuzzMap m v r.maxOut.toNat

end Sys2Proof.Machine
end

