-- ==== Sys2Proof/Machine/Wrappers.lean ====
section
/-! DEFINITION. The unit's own arithmetic of the two wrapper effects (44_wrappers.md R200, R201, R203). What the
collaborators answer are free values (Config.lean). -/

namespace Sys2Proof.Machine

/-- The level of a drawn `ENV_TICK` word, clamped to 1.0 (R200). -/
def envLevel (tick : Word) : Nat := min tick.toNat 65536

/-- ADSRGain (R201) for the drawn word `tick`: `clip(tdiv(B * L * x, 2^32))`. -/
def adsrSample (m : Rounding) (boostFactor tick : Word) (x : Sample) : Int :=
  clip (quot m (boostFactor.toInt * envLevel tick * x.toInt) 4294967296)

end Sys2Proof.Machine
end

