-- ==== Sys2Proof/Machine/Process.lean ====
section
/-! DEFINITION. The command `PROCESS` (41_process_static.md R140, R141): the checks, the bypass, and the dispatch on
the slot's kind (30_encoding.md R84). Each kind has a definition of its own. -/

namespace Sys2Proof.Machine

/-- An effect without running state answers its sample and writes nothing (R146, R147, R148). -/
def processStatic (y : Int) (s : State) : Result := s.finish (sampleResult y)

/-- `PROCESS` on an active `TREMOLO` slot: the output, then the counter step (R162, R163, R164). -/
def processTremolo (i : Nat) (u : EffectUnit) (t : TremoloRegs) (x : Sample) (s : State) : Result :=
  (s.setEffect i u (.tremolo (tremoloAdvance t))).finish
    (sampleResult (tremoloSample s.config.rounding t x))

/-- `PROCESS` on an active `DELAY` slot (R183, R184, R185). -/
def processDelay (i : Nat) (u : EffectUnit) (d : DelayRegs) (x : Sample) (s : State) : Result :=
  match delayStep s.config.rounding d x with
  | none => .fault .elementOutOfRange
  | some (y, d') => (s.setEffect i u (.delay d')).finish (sampleResult y)

/-- `PROCESS` on an active `ADSRGAIN` slot: one draw, then the product (R201). -/
def processAdsr (i : Nat) (boostFactor : Word) (x : Sample) (s : State) : Result :=
  (s.draw (.envTick i s.nextTick)).finish
    (sampleResult (adsrSample s.config.rounding boostFactor s.nextTick x))

/-- `PROCESS` on an active `PITCHSHIFT` slot: the write, then the draw, which is returned as drawn (R203). -/
def processPitch (i : Nat) (x : Sample) (s : State) : Result :=
  ((s.emit [.rbWrite i x]).draw (.rbRead i s.nextRead)).finish (sampleResult s.nextRead.toInt)

/-- Steps 4 to 7 of R226, both compressor kinds, for the target gain of the slot's curve; `wrap` is the
slot's kind. -/
def processComp (wrap : CompRegs → Effect) (i : Nat) (u : EffectUnit) (regs : CompRegs)
    (target : Option Nat) (x : Sample) (s : State) : Result :=
  match target with
  | none => .fault .romIndexOutOfRange
  | some tg =>
    let g := nextGain s.config regs tg
    ((s.linkScale g).setEffect i u (wrap (compAdvance s.config regs tg))).finish
      (sampleResult (applyGain s.config g x.toInt))

/-- `PROCESS` on an active slot, by kind (R140, R84). -/
def processActive (i : Nat) (u : EffectUnit) (x : Sample) (s : State) : Result :=
  match u.effect with
  | .boost v => processStatic (boostSample s.config.rounding v x) s
  | .distortion r => processStatic (distortSample r x) s
  | .fuzz r => processStatic (fuzzSample s.config.rounding r x) s
  | .tremolo t => processTremolo i u t x s
  | .delay d => processDelay i u d x s
  | .adsrGain b => processAdsr i b x s
  | .pitchShift _ => processPitch i x s
  | .compSk r => processComp .compSk i u r (kneeTarget s.config r (level x)) x s
  | .compLog r => processComp .compLog i u r (logTarget s.config r (level x)) x s

/-- `PROCESS s<i>, x` (R140): an inactive slot returns its input and nothing else happens (R141). -/
def execProcess (i : Nat) (x : Sample) (s : State) : Result :=
  s.withUnit i fun u =>
    if u.active then processActive i u x s else s.finish (sampleResult x.toInt)

end Sys2Proof.Machine
end

