-- ==== Sys2Proof/Machine/Dispatch.lean ====
section
/-! DEFINITION. The dispatch of a decoded command to its meaning, one arm per constructor. -/

namespace Sys2Proof.Machine

def exec (i : Instr) (s : State) : Host.Outcome State Fault Refusal :=
  match i with
  | .nop => Sys2Proof.Machine.execNop s
  | .construct slot kind => Sys2Proof.Machine.execConstruct slot kind s
  | .destroy slot => Sys2Proof.Machine.execDestroy slot s
  | .dup src dst => Sys2Proof.Machine.execDup src dst s
  | .setActive slot flag => Sys2Proof.Machine.execSetActive slot flag s
  | .getActive slot => Sys2Proof.Machine.execGetActive slot s
  | .setId slot id => Sys2Proof.Machine.execSetId slot id s
  | .getId slot => Sys2Proof.Machine.execGetId slot s
  | .setParam slot reg value => Sys2Proof.Machine.execSetParam slot reg value s
  | .getParam slot reg => Sys2Proof.Machine.execGetParam slot reg s
  | .process slot sample => Sys2Proof.Machine.execProcess slot sample s
  | .bufRd slot index => Sys2Proof.Machine.execBufRd slot index s
  | .linkWr sample0 sample1 => Sys2Proof.Machine.execLinkWr sample0 sample1 s
  | .linkRd => Sys2Proof.Machine.execLinkRd s
  | .getStatus => Sys2Proof.Machine.execGetStatus s

end Sys2Proof.Machine
end

