-- ==== Sys2Proof/Machine/Step.lean ====
section
/-! DEFINITION. One step of the AFX unit: one command (00_scope.md R15). The host presents the request at its
index (10_state.md R22); an illegal word ends with `ERR_ILLEGAL` (30_encoding.md R88); a decoded command runs. -/

namespace Sys2Proof.Machine

/-- One step (R15, R22, R110 check 1). -/
def step (s : State) : Host.Outcome State Fault Refusal :=
  match s.request with
  | none => s.idle
  | some r =>
    match decode r with
    | .error _ => s.illegal
    | .ok i => exec i s

/-- The state with one instruction, given by its bits in the numbering of the opcode table, as the host's next and
only request: it stands for the host's presenting it (notes/assumptions/13.md, 14.md). -/
def State.withFetchWord (s : State) (nbits w : Nat) : State := s.present (requestOfTableWord nbits w)

end Sys2Proof.Machine
end

