-- ==== Sys2Proof/Machine/Curve.lean ====
section
/-! DEFINITION. The compressor's gain curves over the rationals, as 45_compressor.md R212 to R220 write them
first. The machine runs the integer form of R232 (Machine/Compressor.lean); a statement says that the two agree. -/

namespace Sys2Proof.Machine

/-- `ufx(w)` of R9. -/
def ufx (w : Word) : ℚ := (w.toNat : ℚ) / 65536

/-- `in = a / 32767` (R212). -/
def inLevel (a : Nat) : ℚ := (a : ℚ) / 32767

/-- `lowerKnee = max(T - 1/10, 0)` (R213). -/
def lowerKnee (tp : Nat) : ℚ := max ((tp : ℚ) / 100 - 1 / 10) 0

/-- `upperKnee = T + 1/10` (R213). -/
def upperKnee (tp : Nat) : ℚ := (tp : ℚ) / 100 + 1 / 10

/-- `idx` (R215). -/
def kneeIndexQ (tp a : Nat) : Nat :=
  ⌊100 * (inLevel a - lowerKnee tp) / (upperKnee tp - lowerKnee tp)⌋.toNat

/-- `er = 1 + (r - 1) * KNEE_S[idx] / 65536` (R215). -/
def effRatioQ (r : ℚ) (k : Word) : ℚ := 1 + (r - 1) * ufx k

/-- The soft-knee curve (R214). `none` inside is a division by zero (R221); outside it is a table index that
`KNEE_S` lacks. -/
def softOut (c : Config) (tp : Nat) (r : ℚ) (a : Nat) : Option (Option ℚ) :=
  if inLevel a < lowerKnee tp then some (some (inLevel a))
  else if inLevel a > upperKnee tp then
    some (if r = 0 then none else some (upperKnee tp + (inLevel a - upperKnee tp) / r))
  else
    match c.kneeS[kneeIndexQ tp a]? with
    | none => none
    | some k =>
      some (if effRatioQ r k = 0 then none
        else some (lowerKnee tp + (inLevel a - lowerKnee tp) / effRatioQ r k))

/-- `LOGTHR[tp]` (R217, R218): the argument lists the entries from 1 on, so the filler stands for the missing entry 0. -/
def logEntry (c : Config) (tp : Nat) : Option Word :=
  match tp with
  | 0 => none
  | p + 1 => ((0 : Word) :: c.logThr)[p + 1]?

/-- The log-threshold curve (R217, R219), with the same reading of `none`. -/
def logOut (c : Config) (tp : Nat) (r : ℚ) (a : Nat) : Option (Option ℚ) :=
  match logEntry c tp with
  | none => none
  | some w =>
    if inLevel a < ufx w then some (some (inLevel a))
    else some (if r = 0 then none else some (ufx w + (inLevel a - ufx w) / r))

/-- `TG` from a curve's output (R220, R221): `trunc(clamp(out / in, 0, 1) * GAIN_ONE)`, and `GAIN_ONE` where the
curve would divide by zero. The clamped value is not negative, so `trunc` is the floor (R8). -/
def targetOfOut (c : Config) (a : Nat) (out : Option ℚ) : Nat :=
  match out with
  | none => gainOne c
  | some o => ⌊max (min (o / inLevel a) 1) 0 * gainOne c⌋.toNat

/-- `TG` of `COMP_SK` over the rationals (R220). -/
def kneeTargetQ (c : Config) (regs : CompRegs) (a : Nat) : Option Nat :=
  if a = 0 then some (gainOne c)
  else (softOut c regs.thresholdPercent.toNat (ufx regs.ratio) a).map (targetOfOut c a)

/-- `TG` of `COMP_LOG` over the rationals (R220). -/
def logTargetQ (c : Config) (regs : CompRegs) (a : Nat) : Option Nat :=
  if a = 0 then some (gainOne c)
  else (logOut c regs.thresholdPercent.toNat (ufx regs.ratio) a).map (targetOfOut c a)

end Sys2Proof.Machine
end

