-- ==== Sys2Proof/Safety.lean ====
section
/-! DEFINITION. What holds of every state a unit can be in (10_state.md R40), in the terms the statements use. -/

namespace Sys2Proof.Machine

/-- The words never fall along the list (the "monotone" of R216 and R218). -/
def rising : List Word → Bool
  | [] => true
  | [_] => true
  | a :: b :: l => decide (a.toNat ≤ b.toNat) && rising (b :: l)

/-- The default parameters lie in the domains of the write clamps, and the start of the running state in the ranges of
R40(b) and (d) (R42 with R120; notes/assumptions/16.md). -/
abbrev DefaultsOk (c : Config) (d : Defaults) : Prop :=
  d.clipThreshold.toNat ≤ 32767 ∧ d.maxInput.toNat ≤ 32767 ∧ d.maxOut.toNat ≤ 32767 ∧
  d.depthPercent.toNat ≤ 100 ∧ d.depth.toNat ≤ 65536 ∧ d.feedback.toNat ≤ 65536 ∧
  1 ≤ d.thresholdPercent.toNat ∧ d.thresholdPercent.toNat ≤ 99 ∧
  d.counter.toNat ≤ (tremoloNew d).half ∧ d.currentGain.toNat ≤ gainOne c ∧ d.targetGain.toNat ≤ gainOne c

/-- The arguments are ones R5, R216 and R218 allow: `DELAY_CAP >= 1`; `KNEE_S` has 101 entries from 0 to 65536,
never falling; `LOGTHR` has 99 entries, never falling, in `[0, 65536]`; the defaults are in their domains. -/
abbrev ConfigOk (c : Config) : Prop :=
  1 ≤ c.delayCap.toNat ∧
  c.kneeS.length = 101 ∧ (∀ w ∈ c.kneeS, w.toNat ≤ 65536) ∧ rising c.kneeS = true ∧
  c.kneeS[0]? = some 0 ∧ c.kneeS[100]? = some 65536 ∧
  c.logThr.length = 99 ∧ (∀ w ∈ c.logThr, w.toNat ≤ 65536) ∧ rising c.logThr = true ∧
  DefaultsOk c c.defaults

/-- R40(b) and the clamp of `DEPTHPERCENT`. -/
abbrev TremoloOk (t : TremoloRegs) : Prop :=
  t.depthPercent.toNat ≤ 100 ∧ t.counter.toNat ≤ t.half

/-- R40(c), R186 and the clamps of `DEPTH` and `FEEDBACK`: `LEN` is the target length, the cursor is below it (or both
are 0), and the memory is in its canonical form, lists no element from `LEN` on, and holds no -32768. -/
abbrev DelayOk (c : Config) (d : DelayRegs) : Prop :=
  d.depth.toNat ≤ 65536 ∧ d.feedback.toNat ≤ 65536 ∧
  d.len.toNat = d.targetLen c ∧ d.len.toNat ≤ c.delayCap.toNat ∧
  (d.cursor.toNat < d.len.toNat ∨ (d.cursor.toNat = 0 ∧ d.len.toNat = 0)) ∧
  Memory.wf d.mem = true ∧
  (∀ cell ∈ d.mem, cell.1 < d.len.toNat ∧ -32767 ≤ cell.2.toInt)

/-- R40(d) and the clamp of `THRESHOLDPERCENT` to `[lo, hi]`. -/
abbrev CompOk (c : Config) (lo hi : Nat) (r : CompRegs) : Prop :=
  lo ≤ r.thresholdPercent.toNat ∧ r.thresholdPercent.toNat ≤ hi ∧
  r.currentGain.toNat ≤ gainOne c ∧ r.targetGain.toNat ≤ gainOne c

/-- R40(a) to (d) for what one slot holds. -/
def effectOk (c : Config) : Effect → Bool
  | .boost _ => true
  | .distortion r => decide (r.clipThreshold.toNat ≤ 32767 ∧ r.maxInput.toNat ≤ 32767)
  | .fuzz r => decide (r.maxOut.toNat ≤ 32767)
  | .tremolo t => decide (TremoloOk t)
  | .delay d => decide (DelayOk c d)
  | .adsrGain _ => true
  | .pitchShift _ => true
  | .compSk r => decide (CompOk c 0 100 r)
  | .compLog r => decide (CompOk c 1 99 r)

/-- An empty slot has nothing that could be out of range. -/
def slotOk (c : Config) : Slot → Bool
  | none => true
  | some u => effectOk c u.effect

/-- The invariant of R40. Parts (e) and (f) hold by the types of `pair0`, `pair1` and `firstErr`. `NSLOT` is 1 to 16
(R5), and the arguments are legal. -/
abbrev Inv (s : State) : Prop :=
  ConfigOk s.config ∧ 1 ≤ s.nslot ∧ s.nslot ≤ 16 ∧ ∀ slot ∈ s.slots, slotOk s.config slot = true

end Sys2Proof.Machine
end

