-- ==== Sys2Proof/Certificates/Slice0/Obligations.lean ====
section
/-! DEFINITION. The statements for the provers. The first part restates, in the spec's own terms and apart from the
machine's operations, the small tables the statements compare the machine with; the second part is the
statements. -/

namespace Sys2Proof.Spec

open Sys2Proof.Machine

/-- Slot `i` exists and holds the instance `u`. -/
abbrev Holds (s : State) (i : Nat) (u : EffectUnit) : Prop := s.slots[i]? = some (some u)

/-- The state after a command that only answered `(OK, v)` (R13, R22, R255). -/
def answeredOk (s : State) (v : Word) : State :=
  { s with
    hostIndex := s.hostIndex + 1
    responses := s.responses ++ [⟨.ok, v⟩] }

/-- The state after a command that answered `(st, 0)` with an error status (R13, R254, R255). -/
def answeredErr (s : State) (st : Status) : State :=
  { s with
    hostIndex := s.hostIndex + 1
    responses := s.responses ++ [⟨st, 0⟩]
    firstErr := if s.firstErr = .ok then st else s.firstErr }

/-- The state with slot `i` written. -/
def putSlot (s : State) (i : Nat) (v : Slot) : State := { s with slots := s.slots.set i v }

/-- The state with only the kind's own fields of slot `i`, which holds `u`, written. -/
def putEffect (s : State) (i : Nat) (u : EffectUnit) (e : Effect) : State :=
  putSlot s i (some { id := u.id, active := u.active, effect := e })

/-- The state with events appended to the trace. -/
def traced (s : State) (evs : List Event) : State := { s with events := s.events ++ evs }

/-- A command word is legal: it selects a row of the opcode map, and the kind code of a `CONSTRUCT` is 1 to 9 (R88). -/
abbrev LegalCmd (cmd : Word) : Prop :=
  (∃ row ∈ opcodeMap, cmd &&& row.mask = row.matchWord) ∧
  (cmd.toNat / 2 ^ 24 = 1 → 1 ≤ cmd.toNat / 2 ^ 16 % 16 ∧ cmd.toNat / 2 ^ 16 % 16 ≤ 9)

/-- The slots a command names (R82). -/
def slotOperands : Instr → List Nat
  | .nop => []
  | .construct i _ => [i]
  | .destroy i => [i]
  | .dup i j => [i, j]
  | .setActive i _ => [i]
  | .getActive i => [i]
  | .setId i _ => [i]
  | .getId i => [i]
  | .setParam i _ _ => [i]
  | .getParam i _ => [i]
  | .process i _ => [i]
  | .bufRd i _ => [i]
  | .linkWr _ _ => []
  | .linkRd => []
  | .getStatus => []

/-- The slot that must hold an instance (R110 check 3). -/
def neededUnit : Instr → Option Nat
  | .nop => none
  | .construct _ _ => none
  | .destroy _ => none
  | .dup i _ => some i
  | .setActive i _ => some i
  | .getActive i => some i
  | .setId i _ => some i
  | .getId i => some i
  | .setParam i _ _ => some i
  | .getParam i _ => some i
  | .process i _ => some i
  | .bufRd i _ => some i
  | .linkWr _ _ => none
  | .linkRd => none
  | .getStatus => none

/-- The slots a command may write. -/
def writtenSlots : Instr → List Nat
  | .nop => []
  | .construct i _ => [i]
  | .destroy i => [i]
  | .dup _ j => [j]
  | .setActive i _ => [i]
  | .getActive _ => []
  | .setId i _ => [i]
  | .getId _ => []
  | .setParam i _ _ => [i]
  | .getParam _ _ => []
  | .process i _ => [i]
  | .bufRd _ _ => []
  | .linkWr _ _ => []
  | .linkRd => []
  | .getStatus => []

/-- The commands that replace or remove what slot `k` holds (R112, R113, R114). -/
def replaces : Instr → Nat → Bool
  | .construct i _, k => i == k
  | .destroy i, k => i == k
  | .dup _ j, k => j == k
  | .nop, _ => false
  | .setActive _ _, _ => false
  | .getActive _, _ => false
  | .setId _ _, _ => false
  | .getId _, _ => false
  | .setParam _ _ _, _ => false
  | .getParam _ _, _ => false
  | .process _ _, _ => false
  | .bufRd _ _, _ => false
  | .linkWr _ _, _ => false
  | .linkRd, _ => false
  | .getStatus, _ => false

/-- The reading commands of R65. -/
def isRead : Instr → Bool
  | .getActive _ => true
  | .getId _ => true
  | .getParam _ _ => true
  | .bufRd _ _ => true
  | .linkRd => true
  | .getStatus => true
  | .nop => false
  | .construct _ _ => false
  | .destroy _ => false
  | .dup _ _ => false
  | .setActive _ _ => false
  | .setId _ _ => false
  | .setParam _ _ _ => false
  | .process _ _ => false
  | .linkWr _ _ => false

/-- How many registers a kind defines: indexes 0 up to this (R25 to R32). -/
def regCount : Kind → Nat
  | .boost => 1
  | .distortion => 2
  | .fuzz => 2
  | .tremolo => 6
  | .delay => 6
  | .adsrGain => 1
  | .pitchShift => 1
  | .compSk => 7
  | .compLog => 7

/-- How many of them are `RW`; they come first in every table (R25 to R32). -/
def writableCount : Kind → Nat
  | .boost => 1
  | .distortion => 2
  | .fuzz => 2
  | .tremolo => 3
  | .delay => 4
  | .adsrGain => 1
  | .pitchShift => 1
  | .compSk => 5
  | .compLog => 5

/-- The write clamp by kind and register index, over the naturals (R120). -/
def clampOf (k : Kind) (r v : Nat) : Nat :=
  match k with
  | .boost => v
  | .distortion => min v 32767
  | .fuzz => if r = 1 then min v 32767 else v
  | .tremolo => if r = 1 then min v 100 else v
  | .delay => if r = 1 ∨ r = 2 then min v 65536 else v
  | .adsrGain => v
  | .pitchShift => v
  | .compSk => if r = 3 then min v 100 else v
  | .compLog => if r = 3 then min (max v 1) 99 else v

/-- The clamped operand as a word. -/
def clampedWord (k : Kind) (r : Nat) (v : Word) : Word := BitVec.ofNat 32 (clampOf k r v.toNat)

/-- `rate_count_half` (R161). -/
def halfOf (sampleRate durationMs : Word) : Nat := min (sampleRate.toNat * durationMs.toNat / 2000) (2 ^ 32 - 1)

/-- `target_len` (R181). -/
def targetOf (c : Config) (sampleRate durationMs : Word) : Nat :=
  min (sampleRate.toNat * durationMs.toNat / 1000) c.delayCap.toNat

/-- The register of index `r` as `GETPARAM` returns it (R25 to R32, R123). -/
def regValue : Effect → Nat → Option Word
  | .boost v, 0 => some v
  | .distortion d, 0 => some d.clipThreshold
  | .distortion d, 1 => some d.maxInput
  | .fuzz f, 0 => some f.effectValue
  | .fuzz f, 1 => some f.maxOut
  | .tremolo t, 0 => some t.durationMs
  | .tremolo t, 1 => some t.depthPercent
  | .tremolo t, 2 => some t.sampleRate
  | .tremolo t, 3 => some (BitVec.ofNat 32 (halfOf t.sampleRate t.durationMs))
  | .tremolo t, 4 => some t.counter
  | .tremolo t, 5 => some (if t.dir then 1 else 0)
  | .delay d, 0 => some d.durationMs
  | .delay d, 1 => some d.depth
  | .delay d, 2 => some d.feedback
  | .delay d, 3 => some d.sampleRate
  | .delay d, 4 => some d.len
  | .delay d, 5 => some d.cursor
  | .adsrGain b, 0 => some b
  | .pitchShift w, 0 => some w
  | .compSk r, 0 => some r.sampleRate
  | .compSk r, 1 => some r.attackMs
  | .compSk r, 2 => some r.releaseMs
  | .compSk r, 3 => some r.thresholdPercent
  | .compSk r, 4 => some r.ratio
  | .compSk r, 5 => some r.currentGain
  | .compSk r, 6 => some r.targetGain
  | .compLog r, 0 => some r.sampleRate
  | .compLog r, 1 => some r.attackMs
  | .compLog r, 2 => some r.releaseMs
  | .compLog r, 3 => some r.thresholdPercent
  | .compLog r, 4 => some r.ratio
  | .compLog r, 5 => some r.currentGain
  | .compLog r, 6 => some r.targetGain
  | _, _ => none

/-- The registers of a compressor with the `RW` register of index `r` replaced (R32). -/
def storedComp (c : CompRegs) (r : Nat) (w : Word) : CompRegs :=
  match r with
  | 0 => { c with sampleRate := w }
  | 1 => { c with attackMs := w }
  | 2 => { c with releaseMs := w }
  | 3 => { c with thresholdPercent := w }
  | 4 => { c with ratio := w }
  | _ => c

/-- What the slot holds with the `RW` register of index `r` replaced and nothing else (R25 to R32). -/
def stored : Effect → Nat → Word → Effect
  | .boost _, 0, w => .boost w
  | .distortion d, 0, w => .distortion { d with clipThreshold := w }
  | .distortion d, 1, w => .distortion { d with maxInput := w }
  | .fuzz f, 0, w => .fuzz { f with effectValue := w }
  | .fuzz f, 1, w => .fuzz { f with maxOut := w }
  | .tremolo t, 0, w => .tremolo { t with durationMs := w }
  | .tremolo t, 1, w => .tremolo { t with depthPercent := w }
  | .tremolo t, 2, w => .tremolo { t with sampleRate := w }
  | .delay d, 0, w => .delay { d with durationMs := w }
  | .delay d, 1, w => .delay { d with depth := w }
  | .delay d, 2, w => .delay { d with feedback := w }
  | .delay d, 3, w => .delay { d with sampleRate := w }
  | .adsrGain _, 0, w => .adsrGain w
  | .pitchShift _, 0, w => .pitchShift w
  | .compSk c, r, w => .compSk (storedComp c r w)
  | .compLog c, r, w => .compLog (storedComp c r w)
  | e, _, _ => e

/-- The registers whose write has no side effect (R121 d): all but those of (a), (b) and (c). -/
def plainWrite (k : Kind) (r : Nat) : Bool :=
  match k with
  | .tremolo => r == 1
  | .delay => r == 1 || r == 2
  | .pitchShift => false
  | .boost => true
  | .distortion => true
  | .fuzz => true
  | .adsrGain => true
  | .compSk => true
  | .compLog => true

/-- What `CONSTRUCT` puts in the slot for each kind (R112, R28, R29, R32, R42). -/
def freshEffect (c : Config) : Kind → Effect
  | .boost => .boost c.defaults.volume
  | .distortion => .distortion { clipThreshold := c.defaults.clipThreshold, maxInput := c.defaults.maxInput }
  | .fuzz => .fuzz { effectValue := c.defaults.effectValue, maxOut := c.defaults.maxOut }
  | .tremolo =>
    .tremolo
      { durationMs := c.defaults.tremoloDurationMs
        depthPercent := c.defaults.depthPercent
        sampleRate := c.defaults.tremoloSampleRate
        counter := c.defaults.counter
        dir := c.defaults.dir }
  | .delay =>
    .delay
      { durationMs := c.defaults.delayDurationMs
        depth := c.defaults.depth
        feedback := c.defaults.feedback
        sampleRate := c.defaults.delaySampleRate
        len := BitVec.ofNat 32 (targetOf c c.defaults.delaySampleRate c.defaults.delayDurationMs)
        cursor := 0
        mem := [] }
  | .adsrGain => .adsrGain c.defaults.boostFactor
  | .pitchShift => .pitchShift c.defaults.shiftRatio
  | .compSk => .compSk (freshComp c)
  | .compLog => .compLog (freshComp c)
where
  /-- The registers of a fresh compressor. -/
  freshComp (c : Config) : CompRegs :=
    { sampleRate := c.defaults.compSampleRate
      attackMs := c.defaults.attackMs
      releaseMs := c.defaults.releaseMs
      thresholdPercent := c.defaults.thresholdPercent
      ratio := c.defaults.ratio
      currentGain := c.defaults.currentGain
      targetGain := c.defaults.targetGain }

/-- The registers a fresh instance shows with the default arguments, in index order (R42; the tables R25 to R32). -/
def defaultTable : Kind → List Nat
  | .boost => [0x00010000]
  | .distortion => [4990, 6500]
  | .fuzz => [0x00068000, 300]
  | .tremolo => [2000, 50, 44100, 44100, 0, 0]
  | .delay => [1000, 0x00008000, 0x00010000, 44100, 44100, 0]
  | .adsrGain => [0x00010000]
  | .pitchShift => [0x00010000]
  | .compSk => [44100, 10, 100, 50, 0x00020000, 0x40000000, 0x40000000]
  | .compLog => [44100, 10, 100, 50, 0x00020000, 0x40000000, 0x40000000]

/-- The words rise strictly along the list (the checks of R216 and R218). -/
def strictlyRising : List Word → Bool
  | [] => true
  | [_] => true
  | a :: b :: l => decide (a.toNat < b.toNat) && strictlyRising (b :: l)

/-- The events of `CONSTRUCT` (R112). -/
def newEvents (i : Nat) (k : Kind) : List Event :=
  if k = .adsrGain then [.envNew i]
  else if k = .pitchShift then [.rbNew i, .rbSetInc i 0x00010000]
  else []

/-- The events of `DUP` (R114). -/
def cloneEvents (i j : Nat) (e : Effect) : List Event :=
  if e.kind = .adsrGain then [.envClone i j]
  else if e.kind = .pitchShift then [.rbClone i j, .rbSetInc j ((regValue e 0).getD 0)]
  else []

/-- The gain after one smoothing step (R211, R222), over the integers. -/
def smoothed (c : Config) (r : CompRegs) (tg : Nat) : Int :=
  let g : Int := r.currentGain.toNat
  let k : Nat := if tg < r.currentGain.toNat then r.sampleRate.toNat * r.attackMs.toNat
    else r.sampleRate.toNat * r.releaseMs.toNat
  let moved : Int := if k ≤ 1000 then (tg : Int) else g + quot c.rounding (1000 * ((tg : Int) - g)) k
  min (max moved 0) (2 ^ c.gainFrac.val)

/-- A sample scaled by the gain `g` (R223, R224). -/
def scaled (c : Config) (g x : Int) : Int := clip (quot c.rounding (g * x) (2 ^ c.gainFrac.val))

/-- The state after `PROCESS` on an active compressor slot whose target gain is `tg` (R226 steps 3 to 7); `wrap` is
the kind. -/
def compressed (s : State) (i : Nat) (u : EffectUnit) (wrap : CompRegs → Effect) (r : CompRegs) (tg : Nat)
    (x : Sample) : State :=
  let g := smoothed s.config r tg
  let r' : CompRegs := { r with targetGain := BitVec.ofNat 32 tg, currentGain := BitVec.ofInt 32 g }
  let linked : State :=
    { s with
      pair0 := BitVec.ofInt 16 (scaled s.config g s.pair0.toInt)
      pair1 := BitVec.ofInt 16 (scaled s.config g s.pair1.toInt)
      engaged :=
        if 10 * g < 9 * 2 ^ s.config.gainFrac.val then true
        else if 20 * g > 19 * 2 ^ s.config.gainFrac.val then false
        else s.engaged }
  answeredOk (putEffect linked i u (wrap r')) (BitVec.ofInt 32 (scaled s.config g x.toInt))

/-- Commands executed one after the other; `none` if one does not end in a next state. -/
def runAll : List Instr → State → Option State
  | [], s => some s
  | i :: is, s =>
    match exec i s with
    | .next t => runAll is t
    | .fault _ => none
    | .refused _ => none

/-- The triangle of R167 with half period `h`. -/
def triangle (h n : Nat) : Nat := if n % (2 * h) ≤ h then n % (2 * h) else 2 * h - n % (2 * h)

/-- `e_k` of R188: what element 0 of the line holds after the impulse `x0` has gone round `k - 1` times; `echo ... 0` is
`e_1`. -/
def echo (m : Rounding) (feedback : Word) (x0 : Int) : Nat → Int
  | 0 => clip (quot m (feedback.toNat * x0) 65536)
  | k + 1 => clip (quot m (feedback.toNat * echo m feedback x0 k) 65536)

/-- The output at sample `j` of the impulse response of a line of `n` elements (R188). -/
def impulseOut (m : Rounding) (d : DelayRegs) (x0 : Int) (n j : Nat) : Int :=
  if j = 0 then clip (quot m ((65536 - (d.depth.toNat : Int)) * x0) 65536)
  else if j % n = 0 then clip (quot m (d.depth.toNat * echo m d.feedback x0 (j / n - 1)) 65536)
  else 0

/-- The state with every instance's `id`, and the one `CONSTRUCT` gives, replaced by 0. -/
def eraseIds (s : State) : State :=
  { s with
    config := { s.config with defaults := { s.config.defaults with id := 0 } }
    slots := s.slots.map (Option.map fun u => { u with id := 0 }) }

/-- The outcome with the identifiers of its next state erased. -/
def eraseOutcome : Host.Outcome State Fault Refusal → Host.Outcome State Fault Refusal
  | .next t => .next (eraseIds t)
  | .fault f => .fault f
  | .refused r => .refused r

/-- The next state, if there is one. -/
def nextOf : Host.Outcome State Fault Refusal → Option State
  | .next t => some t
  | .fault _ => none
  | .refused _ => none

end Sys2Proof.Spec

section

open Sys2Proof Sys2Proof.Machine Sys2Proof.Spec

/-! ## Reset -/

/-- R41: after reset every slot is `EMPTY`, `pair` is 0, `engaged` is 0 and `first_err` is 0; with the default `NSLOT`
(R5) there are 8 slots. -/
def Obligations.ResetLeavesUnitEmpty : Prop :=
  State.reset.slots.length = 8 ∧
  ∀ s, (s = State.reset ∨ ∃ c n, s = State.resetWith c n) →
    (∀ slot ∈ s.slots, slot = none) ∧ s.pair0 = 0 ∧ s.pair1 = 0 ∧ s.engaged = false ∧ s.firstErr = .ok

/-- R40 at reset, for every legal choice of the arguments of R5; and R270, R271: the reset input empties every slot and clears the
globals whatever the unit did before, and the invariant holds afterwards. That the host side and the arguments stay is the model's
choice (notes/assumptions/12.md). -/
def Obligations.ResetMeetsInvariant : Prop :=
  Inv State.reset ∧
  (∀ c n, ConfigOk c → 1 ≤ n → n ≤ 16 → Inv (State.resetWith c n)) ∧
  ∀ s : State,
    s.assertReset = { s with
      slots := List.replicate s.slots.length none
      pair0 := 0
      pair1 := 0
      engaged := false
      firstErr := .ok } ∧
    (Inv s → Inv s.assertReset)

/-! ## Encoding -/

/-- A few words of 95_test_vectors.md section 2.1 and 30_encoding.md R92, one per format. -/
def Obligations.SpecWordsDecode : Prop :=
  decode ⟨0x00000000, 0xDEADBEEF⟩ = .ok .nop ∧
  decode ⟨0x01240000, 0⟩ = .ok (.construct 2 .tremolo) ∧
  decode ⟨0x02200000, 0⟩ = .ok (.destroy 2) ∧
  decode ⟨0x03270000, 0⟩ = .ok (.dup 2 7) ∧
  decode ⟨0x04200001, 0⟩ = .ok (.setActive 2 true) ∧
  decode ⟨0x06200000, 0xFFFFFFFB⟩ = .ok (.setId 2 0xFFFFFFFB) ∧
  decode ⟨0x08200001, 0x4B⟩ = .ok (.setParam 2 1 75) ∧
  decode ⟨0x09200003, 0⟩ = .ok (.getParam 2 3) ∧
  decode ⟨0x0A20FC18, 0⟩ = .ok (.process 2 (BitVec.ofInt 16 (-1000))) ∧
  decode ⟨0x0B000000, 0xAC43⟩ = .ok (.bufRd 0 44099) ∧
  decode ⟨0x0C000000, 0xFFFE03E8⟩ = .ok (.linkWr 1000 (BitVec.ofInt 16 (-2))) ∧
  decode ⟨0x0E000000, 0⟩ = .ok .getStatus

/-- Decoding the encoding of a well-formed instruction gives it back: no operand bit is dropped. -/
def Obligations.DecodeOfEncodeIsIdentity : Prop :=
  ∀ i : Instr, WellFormed i = true → decode (encode i) = .ok i

/-- What the decoder answers is well formed and encodes to the very words that were read: the whole command word, and the operand
word where the command has an operand in it (R80, R89). -/
def Obligations.EncodeOfDecodeIsIdentity : Prop :=
  ∀ (r : Request) (i : Instr), decode r = .ok i →
    WellFormed i = true ∧ (encode i).cmd = r.cmd ∧
    ((encode i).opd = r.opd ∨ ((encode i).opd = 0 ∧ ∀ opd, decode ⟨r.cmd, opd⟩ = .ok i))

/-- R83, R88: the decoder accepts exactly the words that select a row of the opcode map, less the reserved kind codes. -/
def Obligations.DecoderAcceptsExactlyLegalWords : Prop :=
  ∀ r : Request, (∃ i, decode r = .ok i) ↔ LegalCmd r.cmd

/-! ## The step -/

/-- When the host's next request decodes to `i`, the step is `exec i`, and nothing is done around it: the index advance is part
of the response (R22). `withFetchWord` puts the instruction of the given bits where the step reads its request. -/
def Obligations.StepRunsDecodedInstruction : Prop :=
  (∀ (s : State) (r : Request) (i : Instr), s.program[s.hostIndex]? = some r → decode r = .ok i →
    step s = exec i s) ∧
  ∀ (s : State) (nbits w : Nat) (i : Instr), decodeTableWord nbits w = some i →
    step (s.withFetchWord nbits w) = exec i (s.withFetchWord nbits w)

/-- R88: an illegal word ends with `ERR_ILLEGAL` and changes no state other than `first_err`, before every other check. -/
def Obligations.IllegalWordAnswersErrIllegal : Prop :=
  ∀ (s : State) (r : Request), s.program[s.hostIndex]? = some r → ¬ LegalCmd r.cmd →
    step s = .next (answeredErr s .errIllegal)

/-- R22: the host's index advances by 1 after each response whatever the status, and the list and the arguments never change. The
first clause is the model's choice (notes/assumptions/1.md, from R266): with no request presented the state is held. -/
def Obligations.HostIndexCountsResponses : Prop :=
  (∀ s : State, s.program[s.hostIndex]? = none → step s = .next s) ∧
  ∀ (s t : State) (r : Request), s.program[s.hostIndex]? = some r → step s = .next t →
    t.hostIndex = s.hostIndex + 1 ∧ t.program = s.program ∧ t.config = s.config ∧
    ∃ resp, t.responses = s.responses ++ [resp]

/-! ## Failed commands -/

/-- R110 check 2: a command that names a slot `>= NSLOT` ends with `ERR_SLOT`, whatever the slots hold. -/
def Obligations.MissingSlotAnswersErrSlot : Prop :=
  ∀ (i : Instr) (s : State), (∃ k ∈ slotOperands i, s.slots.length ≤ k) → exec i s = .next (answeredErr s .errSlot)

/-- R110 check 3: a command that needs an instance, on an `EMPTY` slot, ends with `ERR_EMPTY`. -/
def Obligations.EmptySlotAnswersErrEmpty : Prop :=
  ∀ (i : Instr) (s : State) (k : Nat), neededUnit i = some k → (∀ j ∈ slotOperands i, j < s.slots.length) →
    s.slots[k]? = some none → exec i s = .next (answeredErr s .errEmpty)

/-- R110 check 4, R119, R123, R124: an undefined register index, a write to a read-only register, and a `BUFRD` outside a Delay's
elements end with `ERR_REG`. -/
def Obligations.BadRegisterAnswersErrReg : Prop :=
  ∀ (s : State) (i : Nat) (u : EffectUnit), Holds s i u →
    (∀ (r : Nat) (v : Word), writableCount u.effect.kind ≤ r →
      exec (.setParam i r v) s = .next (answeredErr s .errReg)) ∧
    (∀ r : Nat, regCount u.effect.kind ≤ r → exec (.getParam i r) s = .next (answeredErr s .errReg)) ∧
    (∀ k : Word, (∀ d, u.effect = .delay d → d.len.toNat ≤ k.toNat) →
      exec (.bufRd i k) s = .next (answeredErr s .errReg))

/-- R254: a command that ends with a status other than `OK` writes nothing but `first_err`, emits nothing and draws nothing, and its
`rdata` is 0; every command gives exactly one response. The first clause is about every decoded command, the second about every
request, an illegal word among them. -/
def Obligations.FailedCommandWritesOnlyFirstErr : Prop :=
  (∀ (i : Instr) (s t : State), exec i s = .next t →
    ∃ resp : Response, t.responses = s.responses ++ [resp] ∧
      (resp.status ≠ .ok → t = answeredErr s resp.status)) ∧
  ∀ (s t : State) (r : Request), s.program[s.hostIndex]? = some r → step s = .next t →
    ∃ resp : Response, t.responses = s.responses ++ [resp] ∧
      (resp.status ≠ .ok → t = answeredErr s resp.status)

/-- R255: the sticky status after every command, a malformed one among them; and `GETSTATUS` returns it in `rdata[7:4]`. -/
def Obligations.FirstErrKeepsFirstFailure : Prop :=
  (∀ (s t : State) (r : Request), s.program[s.hostIndex]? = some r → step s = .next t →
    ∃ resp : Response, t.responses = s.responses ++ [resp] ∧
      t.firstErr = if resp.status ≠ .ok ∧ s.firstErr = .ok then resp.status else s.firstErr) ∧
  ∀ s : State, ∃ v : Word, exec .getStatus s = .next (answeredOk s v) ∧ v.toNat / 16 % 16 = s.firstErr.code.toNat

/-! ## Management commands: where they complete and what they leave -/

/-- R111. -/
def Obligations.NopOnlyAnswersOk : Prop := ∀ s : State, exec .nop s = .next (answeredOk s 0)

/-- R112: the slot holds a fresh instance, whatever it held, the wrapper kinds emit their events, and nothing else changes. For
arguments other than the default ones the statement rests on the model's choice (DEDUCED, notes/assumptions/16.md): `id` and
`active` are taken from the defaults argument, and `RB_SETINC` carries 1.0 whatever the default shift ratio is. -/
def Obligations.ConstructInstallsFreshInstance : Prop :=
  ∀ (s : State) (i : Nat) (k : Kind), i < s.slots.length →
    exec (.construct i k) s = .next (answeredOk
      (traced (putSlot s i
        (some { id := s.config.defaults.id, active := s.config.defaults.active, effect := freshEffect s.config k }))
        (newEvents i k)) 0)

/-- R42: with the default arguments a fresh instance shows the values of the defaults table, `id = -1` and `active = 1`. R5, R216,
R218: the other default arguments, and the checks the spec prints for the two default ROM tables. -/
def Obligations.ConstructGivesDefaultTable : Prop :=
  (standardConfig.delayCap.toNat = 1048576 ∧ standardConfig.gainFrac.val = 30 ∧ standardConfig.rounding = .truncate) ∧
  (let k := standardConfig.kneeS.map BitVec.toNat
   k.length = 101 ∧ k[0]? = some 0 ∧ k[50]? = some 32768 ∧ k[100]? = some 65536 ∧
   strictlyRising standardConfig.kneeS = true ∧ List.zipWith (· + ·) k k.reverse = List.replicate 101 65536 ∧
   k.sum = 3309568) ∧
  (let l := standardConfig.logThr.map BitVec.toNat
   l.length = 99 ∧ l[50 - 1]? = some 9864 ∧ l[90 - 1]? = some 32768 ∧ l[99 - 1]? = some 65536 ∧
   strictlyRising standardConfig.logThr = true ∧ l.sum = 1377241) ∧
  ∀ (s : State) (i : Nat) (k : Kind), i < s.slots.length → s.config = standardConfig →
    ∃ t u, exec (.construct i k) s = .next t ∧ Holds t i u ∧ u.id.toInt = -1 ∧ u.active = true ∧
      u.effect.kind = k ∧
      (∀ r : Nat, regValue u.effect r = ((defaultTable k)[r]?).map (BitVec.ofNat 32)) ∧
      (∀ d, u.effect = .delay d → ∀ n, Memory.read d.mem n = 0)

/-- R113. -/
def Obligations.DestroyEmptiesSlot : Prop :=
  ∀ (s : State) (i : Nat), i < s.slots.length → exec (.destroy i) s = .next (answeredOk (putSlot s i none) 0)

/-- R114: the destination holds a copy by value, with the running state and the delay memory; `i = j` changes nothing. -/
def Obligations.DupCopiesInstance : Prop :=
  ∀ (s : State) (i j : Nat) (u : EffectUnit), Holds s i u → j < s.slots.length →
    (i = j → exec (.dup i j) s = .next (answeredOk s 0)) ∧
    (i ≠ j → exec (.dup i j) s =
      .next (answeredOk (traced (putSlot s j (some u)) (cloneEvents i j u.effect)) 0))

/-- R115, R116: `SETACTIVE` writes the flag and nothing else; `GETACTIVE` returns it in bit 0. -/
def Obligations.ActiveFlagIsWrittenAndRead : Prop :=
  ∀ (s : State) (i : Nat) (b : Bool) (u : EffectUnit), Holds s i u →
    exec (.setActive i b) s =
      .next (answeredOk (putSlot s i (some { id := u.id, active := b, effect := u.effect })) 0) ∧
    exec (.getActive i) s = .next (answeredOk s (if u.active then 1 else 0))

/-- R117, R118: `SETID` stores any word and nothing else; `GETID` returns it. -/
def Obligations.IdIsWrittenAndRead : Prop :=
  ∀ (s : State) (i : Nat) (n : Word) (u : EffectUnit), Holds s i u →
    exec (.setId i n) s =
      .next (answeredOk (putSlot s i (some { id := n, active := u.active, effect := u.effect })) 0) ∧
    exec (.getId i) s = .next (answeredOk s u.id)

/-! ## Parameters -/

/-- R119, R120, R121(d): a write of a `RW` register without side effect stores the clamped word and changes nothing else. -/
def Obligations.SetParamStoresClampedWord : Prop :=
  ∀ (s : State) (i r : Nat) (v : Word) (u : EffectUnit), Holds s i u → r < writableCount u.effect.kind →
    plainWrite u.effect.kind r = true →
    exec (.setParam i r v) s =
      .next (answeredOk (putEffect s i u (stored u.effect r (clampedWord u.effect.kind r v))) 0)

/-- R121(a), R165: a write of a Tremolo's `DURATION_MS` (index 0) or `SAMPLERATE` (index 2) keeps the counter, or lowers it to
the new half period if it exceeds it; the direction stays. -/
def Obligations.SetParamLowersTremoloCounter : Prop :=
  ∀ (s : State) (i r : Nat) (v : Word) (u : EffectUnit) (t : TremoloRegs), Holds s i u → u.effect = .tremolo t →
    (r = 0 ∨ r = 2) →
    let duration := if r = 0 then v else t.durationMs
    let rate := if r = 2 then v else t.sampleRate
    let half := halfOf rate duration
    exec (.setParam i r v) s = .next (answeredOk (putEffect s i u (.tremolo
      { durationMs := duration
        depthPercent := t.depthPercent
        sampleRate := rate
        counter := if t.counter.toNat ≤ half then t.counter else BitVec.ofNat 32 half
        dir := t.dir })) 0)

/-- R121(c), R182: a write of a Delay's `DURATION_MS` (index 0) or `SAMPLERATE` (index 3) that leaves the target length equal to
`LEN` changes neither memory nor cursor; one that changes it zero-fills, resets the cursor and takes the new length. It does so
whether the slot is active or not. -/
def Obligations.SetParamResizesDelay : Prop :=
  ∀ (s : State) (i r : Nat) (v : Word) (u : EffectUnit) (d : DelayRegs), Holds s i u → u.effect = .delay d →
    (r = 0 ∨ r = 3) →
    let duration := if r = 0 then v else d.durationMs
    let rate := if r = 3 then v else d.sampleRate
    let n := targetOf s.config rate duration
    ∃ d' : DelayRegs,
      exec (.setParam i r v) s = .next (answeredOk (putEffect s i u (.delay d')) 0) ∧
      d'.durationMs = duration ∧ d'.sampleRate = rate ∧ d'.depth = d.depth ∧ d'.feedback = d.feedback ∧
      d'.len.toNat = n ∧
      (n = d.len.toNat → d'.cursor = d.cursor ∧ ∀ k, Memory.read d'.mem k = Memory.read d.mem k) ∧
      (n ≠ d.len.toNat → d'.cursor = 0 ∧ ∀ k, Memory.read d'.mem k = 0)

/-- R204, R121(b): a write of a PitchShift's `SHIFTRATIO` stores the word unclamped and emits `RB_SETINC` with it. -/
def Obligations.SetParamSetsPitchIncrement : Prop :=
  ∀ (s : State) (i : Nat) (v w : Word) (u : EffectUnit), Holds s i u → u.effect = .pitchShift w →
    exec (.setParam i 0 v) s =
      .next (answeredOk (traced (putEffect s i u (.pitchShift v)) [.rbSetInc i v]) 0)

/-- R123: the stored word, or the derived one of `RATE_COUNT_HALF`; reading changes nothing. Every index below the kind's count is
such a register. -/
def Obligations.GetParamReturnsRegister : Prop :=
  (∀ (s : State) (i r : Nat) (u : EffectUnit) (w : Word), Holds s i u → regValue u.effect r = some w →
    exec (.getParam i r) s = .next (answeredOk s w)) ∧
  ∀ (e : Effect) (r : Nat), (∃ w, regValue e r = some w) ↔ r < regCount e.kind

/-- R72 with R120: what a setter stored is what the getter of the next command returns, for every writable register of every
kind. -/
def Obligations.GetterReturnsClampedSetting : Prop :=
  ∀ (s : State) (i r : Nat) (v : Word) (u : EffectUnit), Holds s i u → r < writableCount u.effect.kind →
    ∃ t, exec (.setParam i r v) s = .next t ∧
      exec (.getParam i r) t = .next (answeredOk t (clampedWord u.effect.kind r v))

/-- R124: an element below `LEN`, sign-extended. -/
def Obligations.BufRdReturnsElement : Prop :=
  ∀ (s : State) (i : Nat) (k : Word) (u : EffectUnit) (d : DelayRegs), Holds s i u → u.effect = .delay d →
    k.toNat < d.len.toNat →
    exec (.bufRd i k) s = .next (answeredOk s (BitVec.ofInt 32 (Memory.read d.mem k.toNat).toInt))

/-! ## Stereo link and status -/

/-- R125 on the operand word: the low half is `pair[0]`, the high half `pair[1]`, and nothing else changes. R126: `LINKRD` returns
`pair[1]` in the upper half and `pair[0]` in the lower half, and the pair stays. -/
def Obligations.LinkPairIsLoadedAndRead : Prop :=
  (∀ (s : State) (opd : Word),
    ∃ a b, decode ⟨0x0C000000, opd⟩ = .ok (.linkWr a b) ∧
      a.toNat = opd.toNat % 2 ^ 16 ∧ b.toNat = opd.toNat / 2 ^ 16 ∧
      exec (.linkWr a b) s = .next (answeredOk { s with pair0 := a, pair1 := b } 0)) ∧
  (∀ (s : State) (a b : Sample),
    exec (.linkWr a b) s = .next (answeredOk { s with pair0 := a, pair1 := b } 0)) ∧
  ∀ s : State, exec .linkRd s = .next (answeredOk s (BitVec.ofNat 32 (s.pair1.toNat * 65536 + s.pair0.toNat)))

/-- R127: bit 0 is `engaged`, bits 7:4 are `first_err`, which is not cleared. -/
def Obligations.GetStatusReturnsFlags : Prop :=
  ∀ s : State, exec .getStatus s = .next (answeredOk s (BitVec.ofNat 32
    ((if s.engaged then 1 else 0) + 16 * (match s.firstErr with
      | .ok => 0
      | .errIllegal => 1
      | .errSlot => 2
      | .errEmpty => 3
      | .errReg => 4))))

/-! ## PROCESS -/

/-- R141: an inactive slot of any kind returns its input and changes no state at all. -/
def Obligations.BypassReturnsInputUnchanged : Prop :=
  ∀ (s : State) (i : Nat) (x : Sample) (u : EffectUnit), Holds s i u → u.active = false →
    exec (.process i x) s = .next (answeredOk s (BitVec.ofInt 32 x.toInt))

/-- R146. -/
def Obligations.ProcessBoostScales : Prop :=
  ∀ (s : State) (i : Nat) (x : Sample) (u : EffectUnit) (v : Word), Holds s i u → u.active = true →
    u.effect = .boost v →
    exec (.process i x) s =
      .next (answeredOk s (BitVec.ofInt 32 (clip (quot s.config.rounding (v.toInt * x.toInt) 65536))))

/-- R147, with the three cases of `clip` (R142) written out. -/
def Obligations.ProcessDistortionClips : Prop :=
  ∀ (s : State) (i : Nat) (x : Sample) (u : EffectUnit) (d : DistortionRegs), Holds s i u → u.active = true →
    u.effect = .distortion d →
    let l : Int := d.clipThreshold.toNat
    let r : Int := d.maxInput.toNat
    exec (.process i x) s = .next (answeredOk s (BitVec.ofInt 32
      (if x.toInt > l then r else if x.toInt < -l then -r else x.toInt)))

/-- R148. The linear map is the choice of notes/assumptions/15.md (DESIGN CHOICE): U14 lets a model leave it open. -/
def Obligations.ProcessFuzzMapsTwice : Prop :=
  ∀ (s : State) (i : Nat) (x : Sample) (u : EffectUnit) (f : FuzzRegs), Holds s i u → u.active = true →
    u.effect = .fuzz f →
    let q := quot s.config.rounding
    let e := f.effectValue.toInt
    let mo : Int := f.maxOut.toNat
    let y1 := clip (q (e * x.toInt) 65536)
    let v := q (e * y1) 65536
    exec (.process i x) s =
      .next (answeredOk s (BitVec.ofInt 32 (clip (q ((v + 32768) * 2 * mo - 65535 * mo) 65535))))

/-- R162, R163: the output uses the counter before it moves; the direction is settled from the position before the move. -/
def Obligations.ProcessTremoloModulates : Prop :=
  ∀ (s : State) (i : Nat) (x : Sample) (u : EffectUnit) (t : TremoloRegs), Holds s i u → u.active = true →
    u.effect = .tremolo t → 1 ≤ halfOf t.sampleRate t.durationMs → t.counter.toNat ≤ halfOf t.sampleRate t.durationMs →
    let h := halfOf t.sampleRate t.durationMs
    let c := t.counter.toNat
    let p : Int := t.depthPercent.toNat
    let down : Bool := if c ≥ h then true else if c = 0 then false else t.dir
    exec (.process i x) s = .next (answeredOk (putEffect s i u (.tremolo
      { t with
        dir := down
        counter := BitVec.ofNat 32 (if down then c - 1 else c + 1) }))
      (BitVec.ofInt 32 (clip (quot s.config.rounding (x.toInt * ((100 - p) * h + p * c)) (100 * h)))))

/-- R164: with a half period of 0 the output is the unmodulated part, the counter rests at 0 and the direction stays. That the output
is this value and no free one is the model's choice between the two U1 allows (DESIGN CHOICE, notes/assumptions/15.md). -/
def Obligations.ProcessTremoloAtRest : Prop :=
  ∀ (s : State) (i : Nat) (x : Sample) (u : EffectUnit) (t : TremoloRegs), Holds s i u → u.active = true →
    u.effect = .tremolo t → halfOf t.sampleRate t.durationMs = 0 →
    exec (.process i x) s = .next (answeredOk (putEffect s i u (.tremolo { t with counter := 0 }))
      (BitVec.ofInt 32 (clip (quot s.config.rounding (x.toInt * (100 - (t.depthPercent.toNat : Int))) 100))))

/-- R183, R184: mix, feedback write into the same element, cursor advance; every other element reads as before, and the memory stays in its canonical
form. -/
def Obligations.ProcessDelayEchoes : Prop :=
  ∀ (s : State) (i : Nat) (x : Sample) (u : EffectUnit) (d : DelayRegs), Holds s i u → u.active = true →
    u.effect = .delay d → d.cursor.toNat < d.len.toNat → Memory.wf d.mem = true →
    let q := quot s.config.rounding
    let c := d.cursor.toNat
    let z := (Memory.read d.mem c).toInt
    ∃ d' : DelayRegs,
      exec (.process i x) s = .next (answeredOk (putEffect s i u (.delay d'))
        (BitVec.ofInt 32 (clip (q ((65536 - (d.depth.toNat : Int)) * x.toInt + d.depth.toNat * z) 65536)))) ∧
      d'.durationMs = d.durationMs ∧ d'.depth = d.depth ∧ d'.feedback = d.feedback ∧
      d'.sampleRate = d.sampleRate ∧ d'.len = d.len ∧
      d'.cursor.toNat = (if c + 1 ≥ d.len.toNat then 0 else c + 1) ∧
      (Memory.read d'.mem c).toInt = clip (q (d.feedback.toNat * (z + x.toInt)) 65536) ∧
      Memory.wf d'.mem = true ∧
      ∀ k, k ≠ c → Memory.read d'.mem k = Memory.read d.mem k

/-- R185: with length 0 the delayed sample is taken as 0 and nothing is stored. That the output is this value and no free one is the
model's choice between the two U2 allows (DESIGN CHOICE, notes/assumptions/15.md). -/
def Obligations.ProcessDelayOfLengthZero : Prop :=
  ∀ (s : State) (i : Nat) (x : Sample) (u : EffectUnit) (d : DelayRegs), Holds s i u → u.active = true →
    u.effect = .delay d → d.len = 0 →
    exec (.process i x) s = .next (answeredOk s
      (BitVec.ofInt 32 (clip (quot s.config.rounding ((65536 - (d.depth.toNat : Int)) * x.toInt) 65536))))

/-- R201: exactly one draw, whatever word the generator answers; the level is that word clamped to 1.0. -/
def Obligations.ProcessAdsrScalesByDrawnLevel : Prop :=
  ∀ (s : State) (i : Nat) (x : Sample) (u : EffectUnit) (b : Word), Holds s i u → u.active = true →
    u.effect = .adsrGain b →
    let w := Config.envTick s.draws
    exec (.process i x) s = .next (answeredOk { s with events := s.events ++ [.envTick i w], draws := s.draws + 1 }
      (BitVec.ofInt 32 (clip (quot s.config.rounding (b.toInt * (min w.toNat 65536 : Nat) * x.toInt) 4294967296))))

/-- R203: the write, then the read, whose sample is answered as drawn. -/
def Obligations.ProcessPitchAnswersDrawnSample : Prop :=
  ∀ (s : State) (i : Nat) (x : Sample) (u : EffectUnit) (w : Word), Holds s i u → u.active = true →
    u.effect = .pitchShift w →
    let y := Config.rbRead s.draws
    exec (.process i x) s = .next (answeredOk
      { s with events := s.events ++ [.rbWrite i x, .rbRead i y], draws := s.draws + 1 } (BitVec.ofInt 32 y.toInt))

/-- R226 for `COMP_SK`: the target gain is that of the rational curve of R212 to R215, R220 and R221, and the smoothing, the
output, the pair and the flag follow from it. The unity gain where the curve divides by zero is the choice of
notes/assumptions/15.md. -/
def Obligations.ProcessSoftKneeCompresses : Prop :=
  ∀ (s : State) (i : Nat) (x : Sample) (u : EffectUnit) (r : CompRegs), ConfigOk s.config → Holds s i u →
    u.active = true → u.effect = .compSk r →
    ∃ tg, kneeTargetQ s.config r x.toInt.natAbs = some tg ∧
      exec (.process i x) s = .next (compressed s i u .compSk r tg x)

/-- R226 for `COMP_LOG`, with the curve of R217 to R219, and the same choice of notes/assumptions/15.md. -/
def Obligations.ProcessLogThresholdCompresses : Prop :=
  ∀ (s : State) (i : Nat) (x : Sample) (u : EffectUnit) (r : CompRegs), ConfigOk s.config → Holds s i u →
    u.active = true → u.effect = .compLog r → 1 ≤ r.thresholdPercent.toNat → r.thresholdPercent.toNat ≤ 99 →
    ∃ tg, logTargetQ s.config r x.toInt.natAbs = some tg ∧
      exec (.process i x) s = .next (compressed s i u .compLog r tg x)

/-! ## Arithmetic and curves -/

/-- R143: the three cases of the one-argument `clip(v)`. R142: the three cases of `clip(v, L, R)`, and the ranges of its result. -/
def Obligations.ClipSaturates : Prop :=
  (∀ v : Int, (v > 32767 → clip v = 32767) ∧ (v < -32767 → clip v = -32767) ∧
    (-32767 ≤ v → v ≤ 32767 → clip v = v)) ∧
  ∀ v l r : Int, 0 ≤ l → l ≤ 32767 → 0 ≤ r → r ≤ 32767 →
    (v > l → clip3 v l r = r) ∧ (v < -l → clip3 v l r = -r) ∧ (-l ≤ v → v ≤ l → clip3 v l r = v) ∧
    (l ≤ r → -r ≤ clip3 v l r ∧ clip3 v l r ≤ r) ∧
    -(max l r) ≤ clip3 v l r ∧ clip3 v l r ≤ max l r ∧ -32767 ≤ clip3 v l r ∧ clip3 v l r ≤ 32767

/-- R8: with the default rounding the quotient has magnitude `floor(|a| / |b|)` and the sign of `a * b`, or is 0. With the other
value of the argument `ROUND`, which the model takes from D6 (DEDUCED, notes/assumptions/5.md), it is the floor of the exact
quotient. -/
def Obligations.QuotientTruncatesTowardZero : Prop :=
  ∀ a b : Int, b ≠ 0 →
    (quot .truncate a b).natAbs = a.natAbs / b.natAbs ∧
    (0 ≤ a * b → 0 ≤ quot .truncate a b) ∧ (a * b ≤ 0 → quot .truncate a b ≤ 0) ∧
    quot .floor a b = ⌊(a : ℚ) / (b : ℚ)⌋

/-- R232: the integer form the machine runs is the rational curve, for every level and every legal choice of the ROM tables. Both
sides take unity gain where the curve divides by zero (notes/assumptions/15.md). -/
def Obligations.IntegerGainFormIsTheCurve : Prop :=
  ∀ (c : Config) (r : CompRegs) (a : Nat), ConfigOk c →
    kneeTarget c r a = kneeTargetQ c r a ∧ logTarget c r a = logTargetQ c r a

/-- R281 (from R220, R221): with `RATIO` at most 1.0 both kinds hold unity target gain at every level; for
`RATIO = 0` by the choice of notes/assumptions/15.md. -/
def Obligations.RatioUpToOneHoldsUnityGain : Prop :=
  ∀ (c : Config) (r : CompRegs) (a : Nat), ConfigOk c → r.ratio.toNat ≤ 65536 →
    kneeTarget c r a = some (2 ^ c.gainFrac.val) ∧
    (1 ≤ r.thresholdPercent.toNat → r.thresholdPercent.toNat ≤ 99 → logTarget c r a = some (2 ^ c.gainFrac.val))

/-- R228(a): at the lower knee bound, on both sides, the soft-knee curve passes the level through, whatever the ratio. -/
def Obligations.SoftKneeContinuousAtLowerBound : Prop :=
  ∀ (c : Config) (r : CompRegs) (a : Nat), ConfigOk c →
    (inLevel a < lowerKnee r.thresholdPercent.toNat ∨
      (inLevel a ≤ upperKnee r.thresholdPercent.toNat ∧ kneeIndexQ r.thresholdPercent.toNat a = 0)) →
    kneeTarget c r a = some (2 ^ c.gainFrac.val)

/-! ## Properties of the effects -/

/-- R149: the sample `PROCESS` answers. -/
def Obligations.ProcessAnswersASample : Prop :=
  ∀ (s t : State) (i : Nat) (x : Sample) (u : EffectUnit), Inv s → Holds s i u → exec (.process i x) s = .next t →
    ∃ y : Int, t.responses = s.responses ++ [⟨.ok, BitVec.ofInt 32 y⟩] ∧ -32768 ≤ y ∧ y ≤ 32767 ∧
      (u.active = true → u.effect.kind ≠ .pitchShift → -32767 ≤ y)

/-- R168: an active Tremolo never raises the magnitude and never turns the sign. -/
def Obligations.TremoloNeverAmplifies : Prop :=
  ∀ (s : State) (i : Nat) (x : Sample) (u : EffectUnit) (tr : TremoloRegs), Holds s i u → u.active = true →
    u.effect = .tremolo tr → TremoloOk tr →
    ∃ (t : State) (y : Int), exec (.process i x) s = .next t ∧
      t.responses = s.responses ++ [⟨.ok, BitVec.ofInt 32 y⟩] ∧
      y.natAbs ≤ x.toInt.natAbs ∧ 0 ≤ y * x.toInt

/-- R167: with the parameters left alone and `H >= 1`, the counter runs the triangle of period `2H` from 0, and sample `n` is
scaled by the gain of its place in the triangle. -/
def Obligations.TremoloRunsTriangle : Prop :=
  ∀ (s : State) (i : Nat) (u : EffectUnit) (tr : TremoloRegs) (xs : List Sample), Holds s i u → u.active = true →
    u.effect = .tremolo tr → 1 ≤ halfOf tr.sampleRate tr.durationMs → tr.counter = 0 →
    let h := halfOf tr.sampleRate tr.durationMs
    let p : Int := tr.depthPercent.toNat
    ∃ (t : State) (tr' : TremoloRegs), runAll (xs.map (.process i)) s = some t ∧
      Holds t i { u with effect := .tremolo tr' } ∧ tr'.counter.toNat = triangle h xs.length ∧
      t.responses = s.responses ++ xs.zipIdx.map fun xn =>
        ⟨.ok, BitVec.ofInt 32 (clip (quot s.config.rounding
          (xn.1.toInt * ((100 - p) * h + p * triangle h xn.2)) (100 * h)))⟩

/-- R187: for the first `LEN` samples after a zero-fill the output is the dry part alone; with `DEPTH = 0` it is `clip(x)` at every
sample of a Delay in range. -/
def Obligations.DelayIsDryAtFirst : Prop :=
  (∀ (s : State) (i : Nat) (u : EffectUnit) (d : DelayRegs) (xs : List Sample), Holds s i u → u.active = true →
    u.effect = .delay d → d.cursor = 0 → d.mem = [] → xs.length ≤ d.len.toNat →
    ∃ t, runAll (xs.map (.process i)) s = some t ∧
      t.responses = s.responses ++ xs.map fun x =>
        ⟨.ok, BitVec.ofInt 32 (clip (quot s.config.rounding ((65536 - (d.depth.toNat : Int)) * x.toInt) 65536))⟩) ∧
  (∀ (s : State) (i : Nat) (u : EffectUnit) (d : DelayRegs) (x : Sample), Holds s i u → u.active = true →
    u.effect = .delay d → DelayOk s.config d → d.depth = 0 →
    ∃ t, exec (.process i x) s = .next t ∧ t.responses = s.responses ++ [⟨.ok, BitVec.ofInt 32 (clip x.toInt)⟩])

/-- R188: the impulse response of a zero-filled line of `N` elements, sample by sample for ever, and with feedback 1.0 the echo
never dies. -/
def Obligations.DelayImpulseResponse : Prop :=
  ∀ (s : State) (i n : Nat) (u : EffectUnit) (d : DelayRegs) (x0 : Sample), Holds s i u → u.active = true →
    u.effect = .delay d → d.cursor = 0 → d.mem = [] → 1 ≤ d.len.toNat →
    (∃ t, runAll (.process i x0 :: List.replicate n (.process i 0)) s = some t ∧
      t.responses = s.responses ++ (List.range (n + 1)).map fun j =>
        ⟨.ok, BitVec.ofInt 32 (impulseOut s.config.rounding d x0.toInt d.len.toNat j)⟩) ∧
    (d.feedback.toNat = 65536 → ∀ k, echo s.config.rounding d.feedback x0.toInt k = clip x0.toInt)

/-- R227(a), (b), (d): one sample moves the gain toward the target gain of that sample, never past it and never away, both gains
stay in `[0, GAIN_ONE]`, and the output is no louder than the input. -/
def Obligations.GainMovesTowardTarget : Prop :=
  ∀ (s : State) (i : Nat) (x : Sample) (u : EffectUnit) (r : CompRegs) (wrap : CompRegs → Effect),
    (wrap = .compSk ∨ wrap = .compLog) → Inv s → Holds s i u → u.active = true → u.effect = wrap r →
    ∃ (t : State) (r' : CompRegs) (y : Int), exec (.process i x) s = .next t ∧
      Holds t i { u with effect := wrap r' } ∧
      t.responses = s.responses ++ [⟨.ok, BitVec.ofInt 32 y⟩] ∧ y.natAbs ≤ x.toInt.natAbs ∧
      r'.targetGain.toNat ≤ 2 ^ s.config.gainFrac.val ∧ r'.currentGain.toNat ≤ 2 ^ s.config.gainFrac.val ∧
      (r'.targetGain.toNat ≤ r.currentGain.toNat →
        r'.targetGain.toNat ≤ r'.currentGain.toNat ∧ r'.currentGain.toNat ≤ r.currentGain.toNat) ∧
      (r.currentGain.toNat ≤ r'.targetGain.toNat →
        r.currentGain.toNat ≤ r'.currentGain.toNat ∧ r'.currentGain.toNat ≤ r'.targetGain.toNat)

/-! ## Rules of the whole machine -/

/-- R74: a command writes at most the slots it names as written; every other slot reads as before. -/
def Obligations.OtherSlotsReadAsBefore : Prop :=
  ∀ (i : Instr) (s t : State), exec i s = .next t →
    t.slots.length = s.slots.length ∧ ∀ k, k ∉ writtenSlots i → t.slots[k]? = s.slots[k]?

/-- R230: only `CONSTRUCT`, `DESTROY` and `DUP` change the kind of a slot. -/
def Obligations.KindChangesOnlyByReplacement : Prop :=
  ∀ (i : Instr) (s t : State) (k : Nat) (u : EffectUnit), exec i s = .next t → replaces i k = false → Holds s k u →
    ∃ u', Holds t k u' ∧ u'.effect.kind = u.effect.kind

/-- R34, R35: `engaged` is written only by an active `PROCESS` of a compressor slot, and the pair only by that and by `LINKWR`. R141,
R282: a draw is made only by an active `PROCESS` of a wrapper slot, and then exactly one. -/
def Obligations.LinkAndDrawsOnlyByTheirEffects : Prop :=
  ∀ (i : Instr) (s t : State), exec i s = .next t →
    ((t.engaged ≠ s.engaged ∨ ((t.pair0 ≠ s.pair0 ∨ t.pair1 ≠ s.pair1) ∧ ∀ a b, i ≠ .linkWr a b)) →
      ∃ (k : Nat) (x : Sample) (u : EffectUnit), i = .process k x ∧ Holds s k u ∧ u.active = true ∧
        (u.effect.kind = .compSk ∨ u.effect.kind = .compLog)) ∧
    (t.draws ≠ s.draws →
      t.draws = s.draws + 1 ∧
      ∃ (k : Nat) (x : Sample) (u : EffectUnit), i = .process k x ∧ Holds s k u ∧ u.active = true ∧
        (u.effect.kind = .adsrGain ∨ u.effect.kind = .pitchShift))

/-- R65: the reading commands change no state of the unit other than `first_err`, emit nothing and draw nothing, and always
answer. -/
def Obligations.ReadsChangeNothing : Prop :=
  ∀ (i : Instr) (s : State), isRead i = true →
    ∃ (st : Status) (v : Word), exec i s = .next (if st = .ok then answeredOk s v else answeredErr s st)

/-- R23: the `id` has no effect on anything but `GETID`: two runs that differ only in identifiers, the default one among them,
answer alike and stay alike. It takes the two runs to get equal draws: that they do at equal `draws` is the model's choice
(notes/assumptions/3.md). -/
def Obligations.IdsHaveNoEffect : Prop :=
  ∀ (i : Instr) (s : State), (∀ k, i ≠ .getId k) →
    eraseOutcome (exec i (eraseIds s)) = eraseOutcome (exec i s)

/-- R40 (with R166 and R186): the invariant holds after reset, and every step keeps it from every state that meets it. -/
def Obligations.EveryStepKeepsInvariant : Prop :=
  Inv State.reset ∧ ∀ s t : State, Inv s → step s = .next t → Inv t

/-- R250: in a state in range no step faults or is refused, whatever the request: the unit never stops. For a state with no request
it rests on the model's choice of notes/assumptions/1.md. -/
def Obligations.UnitNeverStops : Prop :=
  ∀ s : State, Inv s → ∃ t, step s = .next t

end
end

