-- ==== Sys2Proof/Laws/Arith.lean ====
section
/-! SUPPORT. What the conversion to an integer and the saturation can answer. -/

namespace Sys2Proof.Machine

/-- The quotient of a value between `b * lo` and `b * hi` lies between `lo` and `hi`, under either rounding. -/
theorem quot_between (m : Rounding) (a b lo hi : Int) (hb : 0 < b) (h1 : b * lo ≤ a) (h2 : a ≤ b * hi) :
    lo ≤ quot m a b ∧ quot m a b ≤ hi := by
  cases m with
  | floor =>
    simp only [quot, Int.fdiv_eq_ediv_of_nonneg a hb.le]
    constructor
    · rw [Int.le_ediv_iff_mul_le hb]; linarith [mul_comm b lo]
    · have : a / b * b ≤ a := Int.ediv_mul_le a hb.ne'
      by_contra hc
      have : hi + 1 ≤ a / b := by omega
      nlinarith
  | truncate =>
    simp only [quot]
    rcases le_total 0 a with ha | ha
    · rw [Int.tdiv_eq_ediv_of_nonneg ha]
      constructor
      · rw [Int.le_ediv_iff_mul_le hb]; linarith [mul_comm b lo]
      · have : a / b * b ≤ a := Int.ediv_mul_le a hb.ne'
        by_contra hc
        have : hi + 1 ≤ a / b := by omega
        nlinarith
    · have e : a.tdiv b = -((-a) / b) := by
        rw [← Int.tdiv_eq_ediv_of_nonneg (by omega : 0 ≤ -a), Int.neg_tdiv, neg_neg]
      rw [e]
      constructor
      · have : (-a) / b * b ≤ -a := Int.ediv_mul_le (-a) hb.ne'
        by_contra hc
        have : -lo + 1 ≤ (-a) / b := by omega
        nlinarith
      · have : -hi ≤ (-a) / b := by
          rw [Int.le_ediv_iff_mul_le hb]; linarith [mul_comm b hi]
        omega

@[simp] theorem quot_zero (m : Rounding) (b : Int) : quot m 0 b = 0 := by
  cases m <;> simp [quot]

/-- An exact quotient is not changed by the conversion. -/
theorem quot_mul (m : Rounding) (a b : Int) (hb : 0 < b) : quot m (b * a) b = a := by
  have := quot_between m (b * a) b a a hb le_rfl le_rfl
  omega

/-- `clip` answers a value in `[-32767, 32767]` (R143). -/
theorem clip_range (v : Int) : -32767 ≤ clip v ∧ clip v ≤ 32767 := by
  unfold clip clip3
  split
  · omega
  · split <;> omega

theorem clip_eq_self (v : Int) (h1 : -32767 ≤ v) (h2 : v ≤ 32767) : clip v = v := by
  unfold clip clip3
  rw [if_neg (by omega), if_neg (by omega)]

/-- `clip` keeps the sign and never raises the magnitude. -/
theorem clip_magnitude (v : Int) : (0 ≤ v → 0 ≤ clip v ∧ clip v ≤ v) ∧ (v ≤ 0 → v ≤ clip v ∧ clip v ≤ 0) := by
  unfold clip clip3
  constructor <;> intro h <;> split <;> (try split) <;> omega

theorem clip3_range (v l r : Int) (hl : 0 ≤ l) (hl' : l ≤ 32767) (hr : 0 ≤ r) (hr' : r ≤ 32767) :
    -32767 ≤ clip3 v l r ∧ clip3 v l r ≤ 32767 := by
  unfold clip3
  split
  · omega
  · split <;> omega

theorem gainOne_pos (c : Config) : 0 < gainOne c := Nat.two_pow_pos _

theorem gainOne_le (c : Config) : gainOne c ≤ 2 ^ 30 :=
  Nat.pow_le_pow_right (by norm_num) (Nat.lt_succ_iff.mp c.gainFrac.isLt)

theorem applyGain_range (c : Config) (g : Nat) (x : Int) : -32767 ≤ applyGain c g x ∧ applyGain c g x ≤ 32767 :=
  clip_range _

/-- Encoding a value of the sample range and reading it back gives the value. -/
theorem encSample_toInt (z : Int) (h1 : -32768 ≤ z) (h2 : z ≤ 32767) : (encSample z).toInt = z := by
  rw [encSample, BitVec.toInt_ofInt]
  exact Int.bmod_eq_of_le_mul_two (by omega) (by omega)

theorem sample_toInt_range (x : Sample) : -32768 ≤ x.toInt ∧ x.toInt ≤ 32767 := by
  have h1 := BitVec.le_toInt x
  have h2 := BitVec.toInt_lt (x := x)
  norm_num at h1 h2
  omega

end Sys2Proof.Machine
end

