-- ==== Sys2Proof/Laws/Memory.lean ====
section
/-! SUPPORT. The delay memory: a read after a write, and the canonical form every operation keeps. -/

namespace Sys2Proof.Machine

theorem Memory.read_write_same (m : Memory) (k : Nat) (v : Sample) : Memory.wf m = true →
    Memory.read (Memory.write m k v) k = v := by
  suffices h : ∀ lo, Memory.wfFrom lo m = true → Memory.read (Memory.write m k v) k = v from h 0
  induction m with
  | nil =>
    intro lo _
    by_cases hv : v = 0
    · subst hv; rfl
    · simp only [Memory.write, hv, if_false, Memory.read, if_true]
  | cons c m ih =>
    obtain ⟨a, u⟩ := c
    intro lo hw
    simp only [Memory.wfFrom, Bool.and_eq_true, decide_eq_true_eq] at hw
    have hlow : ∀ (m : Memory) (lo : Nat), Memory.wfFrom lo m = true → k < lo → Memory.read m k = 0 := by
      intro m
      induction m with
      | nil => intros; rfl
      | cons c m ih =>
        intro lo h hk
        obtain ⟨b, w⟩ := c
        simp only [Memory.wfFrom, Bool.and_eq_true, decide_eq_true_eq] at h
        have hb : ¬ b = k := by omega
        simp only [Memory.read, hb, if_false]
        exact ih (b + 1) h.2 (by omega)
    by_cases h1 : k < a
    · by_cases hv : v = 0
      · have ha : ¬ a = k := by omega
        simp only [Memory.write, h1, hv, if_true, Memory.read, ha, if_false]
        exact hlow m (a + 1) hw.2 (by omega)
      · simp only [Memory.write, h1, hv, if_true, if_false, Memory.read]
    · by_cases h2 : k = a
      · subst h2
        by_cases hv : v = 0
        · simp only [Memory.write, Nat.lt_irrefl, hv, if_true, if_false]
          exact hlow m (k + 1) hw.2 (by omega)
        · simp only [Memory.write, Nat.lt_irrefl, hv, if_true, if_false, Memory.read]
      · have ha : ¬ a = k := fun h => h2 h.symm
        simp only [Memory.write, h1, h2, if_false, Memory.read, ha]
        exact ih (a + 1) hw.2

theorem Memory.read_write_other (m : Memory) (k j : Nat) (v : Sample) (h : j ≠ k) :
    Memory.read (Memory.write m k v) j = Memory.read m j := by
  have hk : ¬ k = j := fun e => h e.symm
  induction m with
  | nil => by_cases hv : v = 0 <;> simp only [Memory.write, Memory.read, hv, hk, if_true, if_false]
  | cons c m ih =>
    obtain ⟨a, u⟩ := c
    by_cases h1 : k < a
    · by_cases hv : v = 0 <;> simp only [Memory.write, Memory.read, h1, hv, hk, if_true, if_false]
    · by_cases h2 : k = a
      · subst h2
        by_cases hv : v = 0 <;>
          simp only [Memory.write, Memory.read, Nat.lt_irrefl, hv, hk, if_true, if_false]
      · simp only [Memory.write, h1, h2, if_false, Memory.read]
        by_cases ha : a = j <;> simp [ha, ih]

theorem Memory.wfFrom_write (m : Memory) (k : Nat) (v : Sample) : ∀ lo, lo ≤ k → Memory.wfFrom lo m = true →
    Memory.wfFrom lo (Memory.write m k v) = true := by
  induction m with
  | nil =>
    intro lo hk _
    by_cases hv : v = 0
    · simp only [Memory.write, hv, if_true, Memory.wfFrom]
    · simp only [Memory.write, hv, if_false, Memory.wfFrom, Bool.and_eq_true, decide_eq_true_eq]
      exact ⟨⟨hk, hv⟩, trivial⟩
  | cons c m ih =>
    obtain ⟨a, u⟩ := c
    intro lo hk hw
    simp only [Memory.wfFrom, Bool.and_eq_true, decide_eq_true_eq] at hw
    have hmono : ∀ (m : Memory) (x y : Nat), x ≤ y → Memory.wfFrom y m = true → Memory.wfFrom x m = true := by
      intro m x y hxy h
      cases m with
      | nil => rfl
      | cons c m =>
        obtain ⟨b, w⟩ := c
        simp only [Memory.wfFrom, Bool.and_eq_true, decide_eq_true_eq] at h ⊢
        exact ⟨⟨by omega, h.1.2⟩, h.2⟩
    by_cases h1 : k < a
    · by_cases hv : v = 0
      · simp only [Memory.write, h1, hv, if_true, Memory.wfFrom, Bool.and_eq_true, decide_eq_true_eq]
        exact hw
      · simp only [Memory.write, h1, hv, if_true, if_false, Memory.wfFrom, Bool.and_eq_true, decide_eq_true_eq]
        exact ⟨⟨hk, hv⟩, ⟨by omega, hw.1.2⟩, hw.2⟩
    · by_cases h2 : k = a
      · subst h2
        by_cases hv : v = 0
        · simp only [Memory.write, Nat.lt_irrefl, hv, if_true, if_false]
          exact hmono m lo (k + 1) (by omega) hw.2
        · simp only [Memory.write, Nat.lt_irrefl, hv, if_true, if_false, Memory.wfFrom, Bool.and_eq_true,
            decide_eq_true_eq]
          exact ⟨⟨hk, hv⟩, hw.2⟩
      · simp only [Memory.write, h1, h2, if_false, Memory.wfFrom, Bool.and_eq_true, decide_eq_true_eq]
        exact ⟨⟨hw.1.1, hw.1.2⟩, ih (a + 1) (by omega) hw.2⟩

/-- Every memory operation keeps the canonical form. -/
theorem Memory.wf_write (m : Memory) (k : Nat) (v : Sample) (h : Memory.wf m = true) :
    Memory.wf (Memory.write m k v) = true := Memory.wfFrom_write m k v 0 (Nat.zero_le k) h

theorem Memory.wf_zero : Memory.wf Memory.zero = true := rfl

@[simp] theorem Memory.read_zero (k : Nat) : Memory.read Memory.zero k = 0 := rfl

/-- A cell listed after a write was listed before or is the written one. -/
theorem Memory.mem_write (m : Memory) (k : Nat) (v : Sample) (c : Cell) (h : c ∈ Memory.write m k v) :
    c ∈ m ∨ c = (k, v) := by
  induction m with
  | nil =>
    by_cases hv : v = 0 <;> simp_all [Memory.write]
  | cons d m ih =>
    obtain ⟨a, u⟩ := d
    unfold Memory.write at h
    split at h
    · split at h
      · exact .inl h
      · rcases List.mem_cons.mp h with h | h
        · exact .inr h
        · exact .inl h
    · split at h
      · split at h
        · exact .inl (List.mem_cons_of_mem _ h)
        · rcases List.mem_cons.mp h with h | h
          · exact .inr h
          · exact .inl (List.mem_cons_of_mem _ h)
      · rcases List.mem_cons.mp h with h | h
        · exact .inl (h ▸ List.mem_cons_self)
        · exact (ih h).imp (List.mem_cons_of_mem _) id

end Sys2Proof.Machine
end

