-- ==== Sys2Proof/Laws/Effects.lean ====
section
/-! SUPPORT. One lemma per effect operation: what it keeps of the ranges of 10_state.md R40, and when it
answers. -/

namespace Sys2Proof.Machine

/-! ## Write clamps -/

theorem wmin_le (w hi : Word) : (wmin w hi).toNat ≤ hi.toNat := by
  unfold wmin
  split <;> omega

theorem wclampBetween_range (lo w hi : Word) (h : lo.toNat ≤ hi.toNat) :
    lo.toNat ≤ (wclampBetween lo w hi).toNat ∧ (wclampBetween lo w hi).toNat ≤ hi.toNat := by
  unfold wclampBetween wmin
  split <;> (try split) <;> omega

/-! ## Tremolo -/

theorem tremolo_half_lt (t : TremoloRegs) : t.half < 2 ^ 32 := by
  unfold TremoloRegs.half
  omega

theorem word_succ (w : Word) (h : w.toNat + 1 < 2 ^ 32) : (w + 1).toNat = w.toNat + 1 := by
  rw [BitVec.toNat_add]
  exact Nat.mod_eq_of_lt h

theorem word_pred (w : Word) (h : 1 ≤ w.toNat) : (w - 1).toNat = w.toNat - 1 := by bv_omega

/-- The move of the counter, from any place in `[0, H]` and with any direction (R163). -/
theorem tremoloAdvance_counter (t : TremoloRegs) (h0 : t.half ≠ 0) (hc : t.counter.toNat ≤ t.half) :
    (tremoloAdvance t).counter.toNat =
      if directionAt t.counter.toNat t.half t.dir then t.counter.toNat - 1 else t.counter.toNat + 1 := by
  have hlt := tremolo_half_lt t
  have e : (tremoloAdvance t).counter =
      if directionAt t.counter.toNat t.half t.dir then t.counter - 1 else t.counter + 1 := by
    unfold tremoloAdvance
    rw [if_neg h0]
  rw [e]
  by_cases hd : directionAt t.counter.toNat t.half t.dir = true
  · rw [if_pos hd, if_pos hd]
    apply word_pred
    unfold directionAt at hd
    split at hd
    · omega
    · split at hd
      · cases hd
      · omega
  · rw [if_neg hd, if_neg hd]
    apply word_succ
    unfold directionAt at hd
    split at hd
    · simp at hd
    · omega

/-- The counter step keeps the counter in `[0, H]` (R163, R164, R166). -/
theorem tremoloAdvance_ok (t : TremoloRegs) (h : TremoloOk t) : TremoloOk (tremoloAdvance t) := by
  obtain ⟨hp, hc⟩ := h
  by_cases h0 : t.half = 0
  · have e : tremoloAdvance t = { t with counter := 0 } := if_pos h0
    rw [e]
    exact ⟨hp, Nat.zero_le _⟩
  · have e := tremoloAdvance_counter t h0 hc
    have hh : (tremoloAdvance t).half = t.half := by
      unfold tremoloAdvance
      rw [if_neg h0]
      rfl
    have hq : (tremoloAdvance t).depthPercent = t.depthPercent := by
      unfold tremoloAdvance
      rw [if_neg h0]
    refine ⟨hq ▸ hp, ?_⟩
    rw [e, hh]
    by_cases hd : directionAt t.counter.toNat t.half t.dir = true
    · rw [if_pos hd]
      omega
    · rw [if_neg hd]
      unfold directionAt at hd
      split at hd
      · simp at hd
      · omega

/-- A setter's lowering puts the counter back into `[0, H]` (R121 a, R165). -/
theorem tremoloLower_ok (t : TremoloRegs) (h : t.depthPercent.toNat ≤ 100) : TremoloOk (tremoloLower t) := by
  unfold tremoloLower
  split
  · exact ⟨h, by assumption⟩
  · refine ⟨h, ?_⟩
    show (BitVec.ofNat 32 t.half).toNat ≤ t.half
    rw [BitVec.toNat_ofNat]
    exact Nat.mod_le _ _

/-! ## Delay -/

theorem targetLen_le (c : Config) (d : DelayRegs) : d.targetLen c ≤ c.delayCap.toNat := Nat.min_le_right _ _

theorem targetLen_lt (c : Config) (d : DelayRegs) : d.targetLen c < 2 ^ 32 :=
  Nat.lt_of_le_of_lt (targetLen_le c d) c.delayCap.isLt

/-- A zero-fill to the target length leaves a Delay in range (R182). -/
theorem delayFill_ok (c : Config) (d : DelayRegs) (hd : d.depth.toNat ≤ 65536) (hf : d.feedback.toNat ≤ 65536) :
    DelayOk c (delayFill d (d.targetLen c)) := by
  have hlen : (BitVec.ofNat 32 (d.targetLen c)).toNat = d.targetLen c := by
    rw [BitVec.toNat_ofNat]; exact Nat.mod_eq_of_lt (targetLen_lt c d)
  refine ⟨hd, hf, hlen, ?_, ?_, rfl, ?_⟩
  · show (BitVec.ofNat 32 (d.targetLen c)).toNat ≤ _
    rw [hlen]; exact targetLen_le c d
  · show (0 : Word).toNat < (BitVec.ofNat 32 (d.targetLen c)).toNat ∨ _
    rcases Nat.eq_zero_or_pos (d.targetLen c) with h | h
    · exact .inr ⟨rfl, by show (BitVec.ofNat 32 (d.targetLen c)).toNat = 0; rw [hlen]; exact h⟩
    · exact .inl (by rw [hlen]; simpa using h)
  · intro cell hc
    cases hc

/-- The resize step leaves a Delay in range whose memory was in range for its old length (R182, R186). -/
theorem delayResize_ok (c : Config) (d : DelayRegs) (hd : d.depth.toNat ≤ 65536) (hf : d.feedback.toNat ≤ 65536)
    (hc : d.cursor.toNat < d.len.toNat ∨ (d.cursor.toNat = 0 ∧ d.len.toNat = 0)) (hw : Memory.wf d.mem = true)
    (hm : ∀ cell ∈ d.mem, cell.1 < d.len.toNat ∧ -32767 ≤ cell.2.toInt) : DelayOk c (delayResize c d) := by
  unfold delayResize
  split
  · rename_i h
    exact ⟨hd, hf, h.symm, h ▸ targetLen_le c d, hc, hw, hm⟩
  · exact delayFill_ok c d hd hf

theorem cursorNext_lt (cursor len : Word) (h : cursor.toNat < len.toNat) : (cursorNext cursor len).toNat < len.toNat := by
  unfold cursorNext
  have := len.isLt
  split
  · exact Nat.lt_of_le_of_lt (Nat.zero_le _) h
  · rw [word_succ _ (by omega)]
    omega

/-- An active Delay in range answers, and what it leaves is in range (R66, R183 to R186). -/
theorem delayStep_ok (c : Config) (m : Rounding) (d : DelayRegs) (x : Sample) (h : DelayOk c d) :
    ∃ y d', delayStep m d x = some (y, d') ∧ DelayOk c d' ∧ -32767 ≤ y ∧ y ≤ 32767 := by
  obtain ⟨hd, hf, hl, hcap, hc, hw, hm⟩ := h
  unfold delayStep
  by_cases h0 : d.len = 0
  · exact ⟨_, _, if_pos h0, ⟨hd, hf, hl, hcap, hc, hw, hm⟩, clip_range _⟩
  · rw [if_neg h0]
    have hlen : d.len.toNat ≠ 0 := fun e => h0 (BitVec.eq_of_toNat_eq (by simpa using e))
    have hcur : d.cursor.toNat < d.len.toNat := by omega
    rw [DelayRegs.memRead, if_pos hcur]
    refine ⟨_, _, rfl, ⟨hd, hf, hl, hcap, ?_, Memory.wf_write _ _ _ hw, ?_⟩, clip_range _⟩
    · exact .inl (cursorNext_lt _ _ hcur)
    · intro cell hcell
      rcases Memory.mem_write _ _ _ _ hcell with hin | rfl
      · exact hm cell hin
      · refine ⟨hcur, ?_⟩
        have hr := clip_range (quot m (d.feedback.toNat * ((Memory.read d.mem d.cursor.toNat).toInt + x.toInt)) 65536)
        show -32767 ≤ (encSample (delayFeedback m d x.toInt (Memory.read d.mem d.cursor.toNat).toInt)).toInt
        rw [encSample_toInt _ (by unfold delayFeedback; omega) (by unfold delayFeedback; omega)]
        exact hr.1

/-! ## Compressor -/

theorem gainQuot_le (c : Config) (num den : Int) : gainQuot c num den ≤ gainOne c := by
  unfold gainQuot
  split
  · exact le_rfl
  · split
    · exact Nat.zero_le _
    · apply Nat.div_le_of_le_mul
      have : num.toNat ≤ den.toNat := by omega
      exact Nat.mul_le_mul_right _ this

theorem kneeIndex_le (tp a : Nat) (h1 : 32767 * kneeLo tp ≤ 100 * a) (h2 : 100 * a ≤ 32767 * kneeHi tp) :
    kneeIndex tp a ≤ 100 := by
  unfold kneeIndex
  have hw : 0 < kneeHi tp - kneeLo tp := by unfold kneeHi kneeLo; omega
  have hle : kneeLo tp ≤ kneeHi tp := by unfold kneeHi kneeLo; omega
  apply Nat.div_le_of_le_mul
  have h3 : 100 * a - 32767 * kneeLo tp ≤ 32767 * (kneeHi tp - kneeLo tp) := by omega
  calc 100 * (100 * a - 32767 * kneeLo tp) ≤ 100 * (32767 * (kneeHi tp - kneeLo tp)) := Nat.mul_le_mul_left _ h3
    _ = 32767 * (kneeHi tp - kneeLo tp) * 100 := by ring

/-- The soft-knee curve answers for every level, and its target gain is in the gain range (R220, R227 a). -/
theorem kneeTarget_ok (c : Config) (r : CompRegs) (a : Nat) (hc : c.kneeS.length = 101) :
    ∃ tg, kneeTarget c r a = some tg ∧ tg ≤ gainOne c := by
  unfold kneeTarget
  simp only
  split
  · exact ⟨_, rfl, le_rfl⟩
  · split
    · exact ⟨_, rfl, le_rfl⟩
    · split
      · split
        · exact ⟨_, rfl, le_rfl⟩
        · exact ⟨_, rfl, gainQuot_le _ _ _⟩
      · have hidx := kneeIndex_le r.thresholdPercent.toNat a (by omega) (by omega)
        rw [List.getElem?_eq_getElem (by omega)]
        simp only
        split
        · exact ⟨_, rfl, le_rfl⟩
        · exact ⟨_, rfl, gainQuot_le _ _ _⟩

/-- The log curve answers for every legal threshold, and its target gain is in the gain range. -/
theorem logTarget_ok (c : Config) (r : CompRegs) (a : Nat) (hc : c.logThr.length = 99)
    (h1 : 1 ≤ r.thresholdPercent.toNat) (h2 : r.thresholdPercent.toNat ≤ 99) :
    ∃ tg, logTarget c r a = some tg ∧ tg ≤ gainOne c := by
  unfold logTarget logThreshold
  simp only
  split
  · exact ⟨_, rfl, le_rfl⟩
  · rw [if_neg (by omega), List.getElem?_eq_getElem (by omega)]
    simp only
    split
    · exact ⟨_, rfl, le_rfl⟩
    · split
      · exact ⟨_, rfl, le_rfl⟩
      · exact ⟨_, rfl, gainQuot_le _ _ _⟩

/-- The smoothed gain is in the gain range (R222, R227 a). -/
theorem smoothGain_le (c : Config) (g tg k : Nat) : smoothGain c g tg k ≤ gainOne c := by
  unfold smoothGain
  simp only
  omega

theorem gainWord_toNat (c : Config) (g : Nat) (h : g ≤ gainOne c) : (BitVec.ofNat 32 g).toNat = g := by
  rw [BitVec.toNat_ofNat]
  have := gainOne_le c
  exact Nat.mod_eq_of_lt (by omega)

/-- The two gain registers after a sample are in the gain range (R227 a). -/
theorem compAdvance_ok (c : Config) (lo hi tg : Nat) (r : CompRegs) (h : CompOk c lo hi r) (ht : tg ≤ gainOne c) :
    CompOk c lo hi (compAdvance c r tg) := by
  refine ⟨h.1, h.2.1, ?_, ?_⟩
  · show (BitVec.ofNat 32 (nextGain c r tg)).toNat ≤ _
    have hn : nextGain c r tg ≤ gainOne c := smoothGain_le c _ _ _
    rw [gainWord_toNat c _ hn]
    exact hn
  · show (BitVec.ofNat 32 tg).toNat ≤ _
    rw [gainWord_toNat c _ ht]
    exact ht

end Sys2Proof.Machine
end

