-- ==== Sys2Proof/Laws/Encoding.lean ====
section
/-! SUPPORT. The fields of an assembled command word, and the small facts about operand fields that the
encoding needs. -/

namespace Sys2Proof

@[simp] theorem fieldsOf_assemble (op : BitVec 8) (s a : BitVec 4) (imm : BitVec 16) :
    fieldsOf (assemble op s a imm) = ⟨op, s, a, imm⟩ := by
  unfold fieldsOf assemble
  congr 1
  · rw [BitVec.extractLsb'_append_eq_of_le (by omega), BitVec.extractLsb'_append_eq_of_le (by omega),
      BitVec.extractLsb'_append_eq_of_le (by omega)]
    exact BitVec.extractLsb'_eq_self
  · rw [BitVec.extractLsb'_append_eq_of_le (by omega), BitVec.extractLsb'_append_eq_of_le (by omega),
      BitVec.extractLsb'_append_eq_of_add_le (by omega)]
    exact BitVec.extractLsb'_eq_self
  · rw [BitVec.extractLsb'_append_eq_of_le (by omega), BitVec.extractLsb'_append_eq_of_add_le (by omega)]
    exact BitVec.extractLsb'_eq_self
  · rw [BitVec.extractLsb'_append_eq_of_add_le (by omega)]
    exact BitVec.extractLsb'_eq_self

/-- A command word is the assembly of its four fields. -/
theorem assemble_fieldsOf (cmd : Word) :
    assemble (fieldsOf cmd).op (fieldsOf cmd).slot (fieldsOf cmd).aux (fieldsOf cmd).imm = cmd := by
  unfold fieldsOf assemble
  rw [BitVec.extractLsb'_append_extractLsb'_eq_extractLsb' (by omega),
    BitVec.extractLsb'_append_extractLsb'_eq_extractLsb' (by omega),
    BitVec.extractLsb'_append_extractLsb'_eq_extractLsb' (by omega)]
  exact BitVec.extractLsb'_eq_self

@[simp] theorem slotBits_toNat (i : Nat) (h : slotFits i = true) : (slotBits i).toNat = i := by
  simp only [slotFits, decide_eq_true_eq] at h
  simp [slotBits, Nat.mod_eq_of_lt h]

theorem slotFits_toNat (b : BitVec 4) : slotFits b.toNat = true := by
  simpa [slotFits] using b.isLt

theorem slotBits_of_toNat (b : BitVec 4) : slotBits b.toNat = b := by simp [slotBits]

@[simp] theorem regImm_low (r : Nat) (h : regFits r = true) : ((regImm r).extractLsb' 0 8).toNat = r := by
  simp only [regFits, decide_eq_true_eq] at h
  unfold regImm
  rw [BitVec.extractLsb'_append_eq_of_add_le (by omega), BitVec.extractLsb'_eq_self]
  simp [Nat.mod_eq_of_lt h]

@[simp] theorem regImm_toNat (r : Nat) (h : regFits r = true) : (regImm r).toNat = r := by
  simp only [regFits, decide_eq_true_eq] at h
  rw [regImm, BitVec.toNat_append]
  simp [Nat.mod_eq_of_lt h]

theorem regFits_mod (n : Nat) : regFits (n % 256) = true := by
  simpa [regFits] using Nat.mod_lt n (by omega)

@[simp] theorem regImm_high (r : Nat) : (regImm r).extractLsb' 8 8 = 0 := by
  unfold regImm
  rw [BitVec.extractLsb'_append_eq_of_le (by omega)]
  exact BitVec.extractLsb'_eq_self

theorem regImm_of_low (imm : BitVec 16) (h : imm.extractLsb' 8 8 = 0) :
    regImm (imm.extractLsb' 0 8).toNat = imm := by
  have e : imm.extractLsb' 8 8 ++ imm.extractLsb' 0 8 = imm.extractLsb' 0 16 :=
    BitVec.extractLsb'_append_extractLsb'_eq_extractLsb' (by omega)
  rw [h, BitVec.extractLsb'_eq_self] at e
  rw [regImm, BitVec.ofNat_toNat, BitVec.setWidth_eq]
  exact e

@[simp] theorem kind_ofCode_code (k : Kind) : Kind.ofCode k.code = some k := by cases k <;> rfl

theorem kind_code_of_ofCode (c : BitVec 4) (k : Kind) (h : Kind.ofCode c = some k) : k.code = c := by
  revert c
  cases k <;> decide

@[simp] theorem flagImm_low (b : Bool) : (flagImm b).getLsbD 0 = b := by cases b <;> decide

@[simp] theorem flagImm_get (b : Bool) : (flagImm b)[0] = b := by cases b <;> decide

@[simp] theorem flagImm_high (b : Bool) : (flagImm b).extractLsb' 1 15 = 0 := by cases b <;> decide

theorem flagImm_of_low (imm : BitVec 16) (h : imm.extractLsb' 1 15 = 0) : flagImm (imm.getLsbD 0) = imm := by
  have e : imm.extractLsb' 1 15 ++ imm.extractLsb' 0 1 = imm.extractLsb' 0 16 :=
    BitVec.extractLsb'_append_extractLsb'_eq_extractLsb' (by omega)
  rw [h, BitVec.extractLsb'_eq_self] at e
  rw [← e]
  have key : ∀ b : BitVec 1, flagImm ((((0 : BitVec 15) ++ b : BitVec (15 + 1))).getLsbD 0) =
      ((0 : BitVec 15) ++ b : BitVec (15 + 1)) := by decide
  exact key _

/-- The pair of samples a `LINKWR` operand word carries. -/
@[simp] theorem linkOpd_low (a b : Sample) : (b ++ a : BitVec (16 + 16)).extractLsb' 0 16 = a := by
  rw [BitVec.extractLsb'_append_eq_of_add_le (by omega), BitVec.extractLsb'_eq_self]

@[simp] theorem linkOpd_high (a b : Sample) : (b ++ a : BitVec (16 + 16)).extractLsb' 16 16 = b := by
  rw [BitVec.extractLsb'_append_eq_of_le (by omega)]
  exact BitVec.extractLsb'_eq_self

theorem linkOpd_of_halves (w : Word) :
    (w.extractLsb' 16 16 ++ w.extractLsb' 0 16 : BitVec (16 + 16)) = w := by
  rw [BitVec.extractLsb'_append_extractLsb'_eq_extractLsb' (by omega)]
  exact BitVec.extractLsb'_eq_self

/-- Masking an assembled word masks its fields. -/
theorem assemble_and (o o' : BitVec 8) (s s' a a' : BitVec 4) (i i' : BitVec 16) :
    assemble o s a i &&& assemble o' s' a' i' = assemble (o &&& o') (s &&& s') (a &&& a') (i &&& i') := by
  unfold assemble
  rw [BitVec.and_append, BitVec.and_append, BitVec.and_append]

/-- Equal assembled words have equal fields. -/
theorem assemble_inj (o o' : BitVec 8) (s s' a a' : BitVec 4) (i i' : BitVec 16) :
    assemble o s a i = assemble o' s' a' i' ↔ o = o' ∧ s = s' ∧ a = a' ∧ i = i' := by
  constructor
  · intro h
    have := congrArg fieldsOf h
    simpa using this
  · rintro ⟨rfl, rfl, rfl, rfl⟩; rfl

/-- The value of an assembled word. -/
theorem assemble_toNat (o : BitVec 8) (s a : BitVec 4) (i : BitVec 16) :
    (assemble o s a i).toNat = o.toNat * 2 ^ 24 + s.toNat * 2 ^ 20 + a.toNat * 2 ^ 16 + i.toNat := by
  unfold assemble
  have := o.isLt
  have := s.isLt
  have := a.isLt
  have := i.isLt
  simp only [BitVec.toNat_append, Nat.shiftLeft_eq]
  rw [← Nat.shiftLeft_eq, ← Nat.shiftLeft_eq, ← Nat.shiftLeft_eq]
  rw [← Nat.shiftLeft_add_eq_or_of_lt (by omega), ← Nat.shiftLeft_add_eq_or_of_lt (by omega), ← Nat.shiftLeft_add_eq_or_of_lt (by omega)]
  simp only [Nat.shiftLeft_eq]
  omega

/-- The must-be-zero bits of the flag form, as a mask and as a field. -/
theorem flagZero_iff (imm : BitVec 16) : imm &&& 0xFFFE = 0 ↔ imm.extractLsb' 1 15 = 0 := by
  constructor
  · intro h
    ext k hk
    have := congrArg (fun b => b.getLsbD (k+1)) h
    have h2 : (0xFFFE : BitVec 16).getLsbD (k+1) = true := by
      have : ∀ k : Fin 15, (0xFFFE : BitVec 16).getLsbD (k.val+1) = true := by decide
      exact this ⟨k, hk⟩
    simp only [BitVec.getLsbD_and, h2] at this
    simp only [BitVec.getElem_extractLsb']
    rw [Nat.add_comm]
    simpa using this
  · intro h
    rw [← flagImm_of_low imm h]
    have : ∀ b, flagImm b &&& 0xFFFE = 0 := by decide
    exact this _

/-- The must-be-zero bits of the register form, as a mask and as a field. -/
theorem regZero_iff (imm : BitVec 16) : imm &&& 0xFF00 = 0 ↔ imm.extractLsb' 8 8 = 0 := by
  have e : imm.extractLsb' 8 8 ++ imm.extractLsb' 0 8 = imm.extractLsb' 0 16 :=
    BitVec.extractLsb'_append_extractLsb'_eq_extractLsb' (by omega)
  rw [BitVec.extractLsb'_eq_self] at e
  have m : (0xFF00 : BitVec 16) = ((0xFF : BitVec 8) ++ (0 : BitVec 8) : BitVec (8+8)) := by decide
  have : imm &&& 0xFF00 = ((imm.extractLsb' 8 8 ++ (0 : BitVec 8)) : BitVec (8+8)) := by
    conv_lhs => rw [← e, m]
    show (BitVec.extractLsb' 8 8 imm ++ BitVec.extractLsb' 0 8 imm) &&& (255 ++ 0 : BitVec (8+8)) = _
    rw [BitVec.and_append]
    have : BitVec.extractLsb' 8 8 imm &&& 255 = BitVec.extractLsb' 8 8 imm := by
      exact BitVec.and_allOnes
    rw [this]; simp
  rw [this]
  constructor
  · intro h
    have := congrArg (fun b : BitVec 16 => b.extractLsb' 8 8) h
    rw [BitVec.extractLsb'_append_eq_of_le (by omega)] at this
    simpa using this
  · intro h; rw [h]; rfl

/-- What `ifZero` answers. -/
theorem ifZero_eq_ok (f : Fields) (z : Bool) (i j : Instr) : ifZero f z i = .ok j ↔ z = true ∧ i = j := by
  unfold ifZero
  cases z <;> simp

end Sys2Proof
end

