-- ==== Sys2Proof/Laws/State.lean ====
section
/-! SUPPORT. One lemma per field of State per update, each true by unfolding, so that no proof unfolds a record
update. -/

namespace Sys2Proof.Machine

/-! ## Fields after a slot write -/

@[simp] theorem State.setSlot_config (s : State) (i : Nat) (v : Slot) : (s.setSlot i v).config = s.config := rfl
@[simp] theorem State.setSlot_slots (s : State) (i : Nat) (v : Slot) : (s.setSlot i v).slots = s.slots.set i v := rfl
@[simp] theorem State.setSlot_pair0 (s : State) (i : Nat) (v : Slot) : (s.setSlot i v).pair0 = s.pair0 := rfl
@[simp] theorem State.setSlot_pair1 (s : State) (i : Nat) (v : Slot) : (s.setSlot i v).pair1 = s.pair1 := rfl
@[simp] theorem State.setSlot_engaged (s : State) (i : Nat) (v : Slot) : (s.setSlot i v).engaged = s.engaged := rfl
@[simp] theorem State.setSlot_firstErr (s : State) (i : Nat) (v : Slot) : (s.setSlot i v).firstErr = s.firstErr := rfl
@[simp] theorem State.setSlot_program (s : State) (i : Nat) (v : Slot) : (s.setSlot i v).program = s.program := rfl
@[simp] theorem State.setSlot_hostIndex (s : State) (i : Nat) (v : Slot) :
    (s.setSlot i v).hostIndex = s.hostIndex := rfl
@[simp] theorem State.setSlot_responses (s : State) (i : Nat) (v : Slot) :
    (s.setSlot i v).responses = s.responses := rfl
@[simp] theorem State.setSlot_events (s : State) (i : Nat) (v : Slot) : (s.setSlot i v).events = s.events := rfl
@[simp] theorem State.setSlot_draws (s : State) (i : Nat) (v : Slot) : (s.setSlot i v).draws = s.draws := rfl

/-! ## Fields after a write of a slot's own fields -/

@[simp] theorem State.setEffect_config (s : State) (i : Nat) (u : EffectUnit) (e : Effect) :
    (s.setEffect i u e).config = s.config := rfl
@[simp] theorem State.setEffect_slots (s : State) (i : Nat) (u : EffectUnit) (e : Effect) :
    (s.setEffect i u e).slots = s.slots.set i (some { u with effect := e }) := rfl
@[simp] theorem State.setEffect_pair0 (s : State) (i : Nat) (u : EffectUnit) (e : Effect) :
    (s.setEffect i u e).pair0 = s.pair0 := rfl
@[simp] theorem State.setEffect_pair1 (s : State) (i : Nat) (u : EffectUnit) (e : Effect) :
    (s.setEffect i u e).pair1 = s.pair1 := rfl
@[simp] theorem State.setEffect_engaged (s : State) (i : Nat) (u : EffectUnit) (e : Effect) :
    (s.setEffect i u e).engaged = s.engaged := rfl
@[simp] theorem State.setEffect_firstErr (s : State) (i : Nat) (u : EffectUnit) (e : Effect) :
    (s.setEffect i u e).firstErr = s.firstErr := rfl
@[simp] theorem State.setEffect_program (s : State) (i : Nat) (u : EffectUnit) (e : Effect) :
    (s.setEffect i u e).program = s.program := rfl
@[simp] theorem State.setEffect_hostIndex (s : State) (i : Nat) (u : EffectUnit) (e : Effect) :
    (s.setEffect i u e).hostIndex = s.hostIndex := rfl
@[simp] theorem State.setEffect_responses (s : State) (i : Nat) (u : EffectUnit) (e : Effect) :
    (s.setEffect i u e).responses = s.responses := rfl
@[simp] theorem State.setEffect_events (s : State) (i : Nat) (u : EffectUnit) (e : Effect) :
    (s.setEffect i u e).events = s.events := rfl
@[simp] theorem State.setEffect_draws (s : State) (i : Nat) (u : EffectUnit) (e : Effect) :
    (s.setEffect i u e).draws = s.draws := rfl

/-! ## Fields after an emission -/

@[simp] theorem State.emit_config (s : State) (evs : List Event) : (s.emit evs).config = s.config := rfl
@[simp] theorem State.emit_slots (s : State) (evs : List Event) : (s.emit evs).slots = s.slots := rfl
@[simp] theorem State.emit_pair0 (s : State) (evs : List Event) : (s.emit evs).pair0 = s.pair0 := rfl
@[simp] theorem State.emit_pair1 (s : State) (evs : List Event) : (s.emit evs).pair1 = s.pair1 := rfl
@[simp] theorem State.emit_engaged (s : State) (evs : List Event) : (s.emit evs).engaged = s.engaged := rfl
@[simp] theorem State.emit_firstErr (s : State) (evs : List Event) : (s.emit evs).firstErr = s.firstErr := rfl
@[simp] theorem State.emit_program (s : State) (evs : List Event) : (s.emit evs).program = s.program := rfl
@[simp] theorem State.emit_hostIndex (s : State) (evs : List Event) : (s.emit evs).hostIndex = s.hostIndex := rfl
@[simp] theorem State.emit_responses (s : State) (evs : List Event) : (s.emit evs).responses = s.responses := rfl
@[simp] theorem State.emit_events (s : State) (evs : List Event) : (s.emit evs).events = s.events ++ evs := rfl
@[simp] theorem State.emit_draws (s : State) (evs : List Event) : (s.emit evs).draws = s.draws := rfl

/-! ## Fields after a draw -/

@[simp] theorem State.draw_config (s : State) (ev : Event) : (s.draw ev).config = s.config := rfl
@[simp] theorem State.draw_slots (s : State) (ev : Event) : (s.draw ev).slots = s.slots := rfl
@[simp] theorem State.draw_pair0 (s : State) (ev : Event) : (s.draw ev).pair0 = s.pair0 := rfl
@[simp] theorem State.draw_pair1 (s : State) (ev : Event) : (s.draw ev).pair1 = s.pair1 := rfl
@[simp] theorem State.draw_engaged (s : State) (ev : Event) : (s.draw ev).engaged = s.engaged := rfl
@[simp] theorem State.draw_firstErr (s : State) (ev : Event) : (s.draw ev).firstErr = s.firstErr := rfl
@[simp] theorem State.draw_program (s : State) (ev : Event) : (s.draw ev).program = s.program := rfl
@[simp] theorem State.draw_hostIndex (s : State) (ev : Event) : (s.draw ev).hostIndex = s.hostIndex := rfl
@[simp] theorem State.draw_responses (s : State) (ev : Event) : (s.draw ev).responses = s.responses := rfl
@[simp] theorem State.draw_events (s : State) (ev : Event) : (s.draw ev).events = s.events ++ [ev] := rfl
@[simp] theorem State.draw_draws (s : State) (ev : Event) : (s.draw ev).draws = s.draws + 1 := rfl

/-! ## Fields after a response -/

@[simp] theorem State.respond_config (s : State) (st : Status) (v : Word) : (s.respond st v).config = s.config := rfl
@[simp] theorem State.respond_slots (s : State) (st : Status) (v : Word) : (s.respond st v).slots = s.slots := rfl
@[simp] theorem State.respond_pair0 (s : State) (st : Status) (v : Word) : (s.respond st v).pair0 = s.pair0 := rfl
@[simp] theorem State.respond_pair1 (s : State) (st : Status) (v : Word) : (s.respond st v).pair1 = s.pair1 := rfl
@[simp] theorem State.respond_engaged (s : State) (st : Status) (v : Word) :
    (s.respond st v).engaged = s.engaged := rfl
@[simp] theorem State.respond_firstErr (s : State) (st : Status) (v : Word) :
    (s.respond st v).firstErr = stickyErr s.firstErr st := rfl
@[simp] theorem State.respond_program (s : State) (st : Status) (v : Word) :
    (s.respond st v).program = s.program := rfl
@[simp] theorem State.respond_hostIndex (s : State) (st : Status) (v : Word) :
    (s.respond st v).hostIndex = s.hostIndex + 1 := rfl
@[simp] theorem State.respond_responses (s : State) (st : Status) (v : Word) :
    (s.respond st v).responses = s.responses ++ [⟨st, v⟩] := rfl
@[simp] theorem State.respond_events (s : State) (st : Status) (v : Word) : (s.respond st v).events = s.events := rfl
@[simp] theorem State.respond_draws (s : State) (st : Status) (v : Word) : (s.respond st v).draws = s.draws := rfl

/-! ## Fields after the stereo link -/

@[simp] theorem State.linkScale_config (s : State) (g : Nat) : (s.linkScale g).config = s.config := rfl
@[simp] theorem State.linkScale_slots (s : State) (g : Nat) : (s.linkScale g).slots = s.slots := rfl
@[simp] theorem State.linkScale_pair0 (s : State) (g : Nat) :
    (s.linkScale g).pair0 = encSample (applyGain s.config g s.pair0.toInt) := rfl
@[simp] theorem State.linkScale_pair1 (s : State) (g : Nat) :
    (s.linkScale g).pair1 = encSample (applyGain s.config g s.pair1.toInt) := rfl
@[simp] theorem State.linkScale_engaged (s : State) (g : Nat) :
    (s.linkScale g).engaged = engagedAfter s.config g s.engaged := rfl
@[simp] theorem State.linkScale_firstErr (s : State) (g : Nat) : (s.linkScale g).firstErr = s.firstErr := rfl
@[simp] theorem State.linkScale_program (s : State) (g : Nat) : (s.linkScale g).program = s.program := rfl
@[simp] theorem State.linkScale_hostIndex (s : State) (g : Nat) : (s.linkScale g).hostIndex = s.hostIndex := rfl
@[simp] theorem State.linkScale_responses (s : State) (g : Nat) : (s.linkScale g).responses = s.responses := rfl
@[simp] theorem State.linkScale_events (s : State) (g : Nat) : (s.linkScale g).events = s.events := rfl
@[simp] theorem State.linkScale_draws (s : State) (g : Nat) : (s.linkScale g).draws = s.draws := rfl

/-! ## Fields after the host's presenting one request -/

@[simp] theorem State.present_config (s : State) (r : Request) : (s.present r).config = s.config := rfl
@[simp] theorem State.present_slots (s : State) (r : Request) : (s.present r).slots = s.slots := rfl
@[simp] theorem State.present_pair0 (s : State) (r : Request) : (s.present r).pair0 = s.pair0 := rfl
@[simp] theorem State.present_pair1 (s : State) (r : Request) : (s.present r).pair1 = s.pair1 := rfl
@[simp] theorem State.present_engaged (s : State) (r : Request) : (s.present r).engaged = s.engaged := rfl
@[simp] theorem State.present_firstErr (s : State) (r : Request) : (s.present r).firstErr = s.firstErr := rfl
@[simp] theorem State.present_program (s : State) (r : Request) : (s.present r).program = [r] := rfl
@[simp] theorem State.present_hostIndex (s : State) (r : Request) : (s.present r).hostIndex = 0 := rfl
@[simp] theorem State.present_responses (s : State) (r : Request) : (s.present r).responses = s.responses := rfl
@[simp] theorem State.present_events (s : State) (r : Request) : (s.present r).events = s.events := rfl
@[simp] theorem State.present_draws (s : State) (r : Request) : (s.present r).draws = s.draws := rfl

/-! ## Fields after the reset input -/

@[simp] theorem State.assertReset_config (s : State) : (s.assertReset).config = s.config := rfl
@[simp] theorem State.assertReset_slots (s : State) : (s.assertReset).slots = List.replicate s.nslot none := rfl
@[simp] theorem State.assertReset_pair0 (s : State) : (s.assertReset).pair0 = 0 := rfl
@[simp] theorem State.assertReset_pair1 (s : State) : (s.assertReset).pair1 = 0 := rfl
@[simp] theorem State.assertReset_engaged (s : State) : (s.assertReset).engaged = false := rfl
@[simp] theorem State.assertReset_firstErr (s : State) : (s.assertReset).firstErr = Status.ok := rfl
@[simp] theorem State.assertReset_program (s : State) : (s.assertReset).program = s.program := rfl
@[simp] theorem State.assertReset_hostIndex (s : State) : (s.assertReset).hostIndex = s.hostIndex := rfl
@[simp] theorem State.assertReset_responses (s : State) : (s.assertReset).responses = s.responses := rfl
@[simp] theorem State.assertReset_events (s : State) : (s.assertReset).events = s.events := rfl
@[simp] theorem State.assertReset_draws (s : State) : (s.assertReset).draws = s.draws := rfl

/-! ## The number of slots -/

@[simp] theorem State.setSlot_nslot (s : State) (i : Nat) (v : Slot) : (s.setSlot i v).nslot = s.nslot :=
  List.length_set
@[simp] theorem State.setEffect_nslot (s : State) (i : Nat) (u : EffectUnit) (e : Effect) :
    (s.setEffect i u e).nslot = s.nslot := List.length_set
@[simp] theorem State.emit_nslot (s : State) (evs : List Event) : (s.emit evs).nslot = s.nslot := rfl
@[simp] theorem State.draw_nslot (s : State) (ev : Event) : (s.draw ev).nslot = s.nslot := rfl
@[simp] theorem State.respond_nslot (s : State) (st : Status) (v : Word) : (s.respond st v).nslot = s.nslot := rfl
@[simp] theorem State.linkScale_nslot (s : State) (g : Nat) : (s.linkScale g).nslot = s.nslot := rfl
@[simp] theorem State.present_nslot (s : State) (r : Request) : (s.present r).nslot = s.nslot := rfl
@[simp] theorem State.assertReset_nslot (s : State) : s.assertReset.nslot = s.nslot := List.length_replicate

end Sys2Proof.Machine
end

