-- ==== Sys2Proof/Laws/Ops.lean ====
section
/-! SUPPORT. What each shared operation over the state can do, said once. -/

namespace Sys2Proof.Machine

@[simp] theorem finish_eq (s : State) (v : Word) : s.finish v = .next (s.respond .ok v) := rfl

@[simp] theorem raise_eq (s : State) (st : Status) : s.raise st = .next (s.respond st 0) := rfl

theorem stickyErr_ok (e : Status) : stickyErr e .ok = e := by simp [stickyErr]

/-- A response `OK` leaves `first_err` as it was. -/
theorem respond_ok (s : State) (v : Word) :
    s.respond .ok v = { s with hostIndex := s.hostIndex + 1, responses := s.responses ++ [⟨.ok, v⟩] } := by
  simp [State.respond, stickyErr_ok]

theorem checkSlot_of_lt (s : State) (i : Nat) (run : Result) (h : i < s.nslot) : s.checkSlot i run = run :=
  if_pos h

theorem checkSlot_of_ge (s : State) (i : Nat) (run : Result) (h : s.nslot ≤ i) :
    s.checkSlot i run = .next (s.respond .errSlot 0) := if_neg (Nat.not_lt.mpr h)

/-- What `checkSlot` can answer. -/
theorem checkSlot_cases (s : State) (i : Nat) (run : Result) :
    (s.nslot ≤ i ∧ s.checkSlot i run = .next (s.respond .errSlot 0)) ∨
    (i < s.nslot ∧ s.checkSlot i run = run) := by
  rcases Nat.lt_or_ge i s.nslot with h | h
  · exact .inr ⟨h, checkSlot_of_lt s i run h⟩
  · exact .inl ⟨h, checkSlot_of_ge s i run h⟩

theorem withUnit_of_some (s : State) (i : Nat) (u : EffectUnit) (run : EffectUnit → Result)
    (h : s.slots[i]? = some (some u)) : s.withUnit i run = run u := by simp [State.withUnit, h]

theorem withUnit_of_empty (s : State) (i : Nat) (run : EffectUnit → Result) (h : s.slots[i]? = some none) :
    s.withUnit i run = .next (s.respond .errEmpty 0) := by simp [State.withUnit, h]

theorem withUnit_of_none (s : State) (i : Nat) (run : EffectUnit → Result) (h : s.nslot ≤ i) :
    s.withUnit i run = .next (s.respond .errSlot 0) := by
  simp [State.withUnit, List.getElem?_eq_none_iff.mpr h]

/-- What `withUnit` can answer: one of the two failed checks of R110, or what the command does with the
instance. -/
theorem withUnit_cases (s : State) (i : Nat) (run : EffectUnit → Result) :
    (s.nslot ≤ i ∧ s.withUnit i run = .next (s.respond .errSlot 0)) ∨
    (s.slots[i]? = some none ∧ s.withUnit i run = .next (s.respond .errEmpty 0)) ∨
    (∃ u, s.slots[i]? = some (some u) ∧ s.withUnit i run = run u) := by
  rcases h : s.slots[i]? with _ | (_ | u)
  · exact .inl ⟨List.getElem?_eq_none_iff.mp h, withUnit_of_none s i run (List.getElem?_eq_none_iff.mp h)⟩
  · exact .inr (.inl ⟨rfl, withUnit_of_empty s i run h⟩)
  · exact .inr (.inr ⟨u, rfl, withUnit_of_some s i u run h⟩)

/-- A slot other than the written one reads as before. -/
theorem setSlot_get_other (s : State) (i j : Nat) (v : Slot) (h : j ≠ i) :
    (s.setSlot i v).slots[j]? = s.slots[j]? := by
  simp [State.setSlot, List.getElem?_set_ne (Ne.symm h)]

theorem setSlot_get_same (s : State) (i : Nat) (v : Slot) (h : i < s.nslot) :
    (s.setSlot i v).slots[i]? = some v := by
  simp [State.setSlot, List.getElem?_set_self h]

/-- What a step does: it idles, rejects the word, or runs the decoded command. -/
theorem step_cases (s : State) :
    (s.request = none ∧ step s = .next s) ∨
    (∃ r e, s.request = some r ∧ decode r = .error e ∧ step s = .next (s.respond .errIllegal 0)) ∨
    (∃ r i, s.request = some r ∧ decode r = .ok i ∧ step s = exec i s) := by
  unfold step
  rcases s.request with _ | r
  · exact .inl ⟨rfl, rfl⟩
  · rcases h : decode r with e | i
    · exact .inr (.inl ⟨r, e, rfl, h, by simp [h, State.illegal]⟩)
    · exact .inr (.inr ⟨r, i, rfl, h, by simp [h]⟩)

@[simp] theorem request_present (s : State) (r : Request) : (s.present r).request = some r := rfl

end Sys2Proof.Machine
end

