-- ==== Sys2Proof/Laws/Exec.lean ====
section
/-! SUPPORT. Everything a command can do, said once: it ends with an error status and writes nothing else, or it
runs, and then one of the cases of `Ran` says what it left. Every statement about all commands is a case analysis
over these. -/

namespace Sys2Proof.Machine

/-- `Ran s i t v`: the command `i`, run in the state `s` with every check passed, leaves `t` and answers `(OK, v)`. The
response itself is not in `t`. -/
inductive Ran (s : State) : Instr → State → Word → Prop
  | nop : Ran s .nop s 0
  | construct (i : Nat) (k : Kind) (h : i < s.nslot) :
      Ran s (.construct i k) ((s.setSlot i (some (constructUnit s.config k))).emit (constructEvents i k)) 0
  | destroy (i : Nat) (h : i < s.nslot) : Ran s (.destroy i) (s.setSlot i none) 0
  | dupSelf (i : Nat) (u : EffectUnit) (h : s.slots[i]? = some (some u)) : Ran s (.dup i i) s 0
  | dup (i j : Nat) (u : EffectUnit) (h : s.slots[i]? = some (some u)) (hj : j < s.nslot) (hn : i ≠ j) :
      Ran s (.dup i j) ((s.setSlot j (some u)).emit (dupEvents i j u.effect)) 0
  | setActive (i : Nat) (b : Bool) (u : EffectUnit) (h : s.slots[i]? = some (some u)) :
      Ran s (.setActive i b) (s.setSlot i (some { u with active := b })) 0
  | getActive (i : Nat) (u : EffectUnit) (h : s.slots[i]? = some (some u)) :
      Ran s (.getActive i) s ((BitVec.ofBool u.active).zeroExtend 32)
  | setId (i : Nat) (n : Word) (u : EffectUnit) (h : s.slots[i]? = some (some u)) :
      Ran s (.setId i n) (s.setSlot i (some { u with id := n })) 0
  | getId (i : Nat) (u : EffectUnit) (h : s.slots[i]? = some (some u)) : Ran s (.getId i) s u.id
  | setParam (i r : Nat) (v : Word) (u : EffectUnit) (reg : Reg) (h : s.slots[i]? = some (some u))
      (hr : (regMap u.effect.kind)[r]? = some (reg, .rw)) :
      Ran s (.setParam i r v) ((s.setEffect i u (writeParam s.config u.effect reg v)).emit
        (writeEvents i (writeParam s.config u.effect reg v))) 0
  | getParam (i r : Nat) (u : EffectUnit) (w : Word) (h : s.slots[i]? = some (some u))
      (hr : u.effect.regWords[r]? = some w) : Ran s (.getParam i r) s w
  | bufRd (i : Nat) (k : Word) (u : EffectUnit) (z : Sample) (h : s.slots[i]? = some (some u))
      (hz : bufElement k.toNat u.effect = some z) : Ran s (.bufRd i k) s (sampleResult z.toInt)
  | linkWr (a b : Sample) : Ran s (.linkWr a b) { s with pair0 := a, pair1 := b } 0
  | linkRd : Ran s .linkRd s (pairWord s.pair0 s.pair1)
  | getStatus : Ran s .getStatus s (statusWord s.engaged s.firstErr)
  | bypass (i : Nat) (x : Sample) (u : EffectUnit) (h : s.slots[i]? = some (some u)) (ha : u.active = false) :
      Ran s (.process i x) s (sampleResult x.toInt)
  | boost (i : Nat) (x : Sample) (u : EffectUnit) (v : Word) (h : s.slots[i]? = some (some u)) (ha : u.active = true)
      (he : u.effect = .boost v) : Ran s (.process i x) s (sampleResult (boostSample s.config.rounding v x))
  | distortion (i : Nat) (x : Sample) (u : EffectUnit) (r : DistortionRegs) (h : s.slots[i]? = some (some u))
      (ha : u.active = true) (he : u.effect = .distortion r) :
      Ran s (.process i x) s (sampleResult (distortSample r x))
  | fuzz (i : Nat) (x : Sample) (u : EffectUnit) (r : FuzzRegs) (h : s.slots[i]? = some (some u))
      (ha : u.active = true) (he : u.effect = .fuzz r) :
      Ran s (.process i x) s (sampleResult (fuzzSample s.config.rounding r x))
  | tremolo (i : Nat) (x : Sample) (u : EffectUnit) (t : TremoloRegs) (h : s.slots[i]? = some (some u))
      (ha : u.active = true) (he : u.effect = .tremolo t) :
      Ran s (.process i x) (s.setEffect i u (.tremolo (tremoloAdvance t)))
        (sampleResult (tremoloSample s.config.rounding t x))
  | delay (i : Nat) (x : Sample) (u : EffectUnit) (d d' : DelayRegs) (y : Int) (h : s.slots[i]? = some (some u))
      (ha : u.active = true) (he : u.effect = .delay d) (hy : delayStep s.config.rounding d x = some (y, d')) :
      Ran s (.process i x) (s.setEffect i u (.delay d')) (sampleResult y)
  | adsr (i : Nat) (x : Sample) (u : EffectUnit) (b : Word) (h : s.slots[i]? = some (some u)) (ha : u.active = true)
      (he : u.effect = .adsrGain b) :
      Ran s (.process i x) (s.draw (.envTick i s.nextTick))
        (sampleResult (adsrSample s.config.rounding b s.nextTick x))
  | pitch (i : Nat) (x : Sample) (u : EffectUnit) (w : Word) (h : s.slots[i]? = some (some u)) (ha : u.active = true)
      (he : u.effect = .pitchShift w) :
      Ran s (.process i x) ((s.emit [.rbWrite i x]).draw (.rbRead i s.nextRead)) (sampleResult s.nextRead.toInt)
  | compSk (i : Nat) (x : Sample) (u : EffectUnit) (r : CompRegs) (tg : Nat) (h : s.slots[i]? = some (some u))
      (ha : u.active = true) (he : u.effect = .compSk r) (ht : kneeTarget s.config r (level x) = some tg) :
      Ran s (.process i x)
        ((s.linkScale (nextGain s.config r tg)).setEffect i u (.compSk (compAdvance s.config r tg)))
        (sampleResult (applyGain s.config (nextGain s.config r tg) x.toInt))
  | compLog (i : Nat) (x : Sample) (u : EffectUnit) (r : CompRegs) (tg : Nat) (h : s.slots[i]? = some (some u))
      (ha : u.active = true) (he : u.effect = .compLog r) (ht : logTarget s.config r (level x) = some tg) :
      Ran s (.process i x)
        ((s.linkScale (nextGain s.config r tg)).setEffect i u (.compLog (compAdvance s.config r tg)))
        (sampleResult (applyGain s.config (nextGain s.config r tg) x.toInt))

/-- What an outcome of `exec` can be: a failed check, a run, or one of the two faults. -/
inductive Answers (s : State) (i : Instr) : Result → Prop
  | failed (st : Status) (h : st ≠ .ok) : Answers s i (.next (s.respond st 0))
  | ran (t : State) (v : Word) (h : Ran s i t v) : Answers s i (.next (t.respond .ok v))
  | delayFault (k : Nat) (x : Sample) (u : EffectUnit) (d : DelayRegs) (hi : i = .process k x)
      (h : s.slots[k]? = some (some u)) (he : u.effect = .delay d)
      (hy : delayStep s.config.rounding d x = none) : Answers s i (.fault .elementOutOfRange)
  | kneeFault (k : Nat) (x : Sample) (u : EffectUnit) (r : CompRegs) (hi : i = .process k x)
      (h : s.slots[k]? = some (some u)) (he : u.effect = .compSk r)
      (ht : kneeTarget s.config r (level x) = none) : Answers s i (.fault .romIndexOutOfRange)
  | logFault (k : Nat) (x : Sample) (u : EffectUnit) (r : CompRegs) (hi : i = .process k x)
      (h : s.slots[k]? = some (some u)) (he : u.effect = .compLog r)
      (ht : logTarget s.config r (level x) = none) : Answers s i (.fault .romIndexOutOfRange)

/-- A command behind check 2 answers as it must if what follows does. -/
theorem answers_checkSlot (s : State) (i : Instr) (k : Nat) (run : Result) (h : k < s.nslot → Answers s i run) :
    Answers s i (s.checkSlot k run) := by
  rcases checkSlot_cases s k run with ⟨-, e⟩ | ⟨hk, e⟩ <;> rw [e]
  · exact .failed _ (by decide)
  · exact h hk

/-- A command behind checks 2 and 3 answers as it must if what follows does. -/
theorem answers_withUnit (s : State) (i : Instr) (k : Nat) (run : EffectUnit → Result)
    (h : ∀ u, s.slots[k]? = some (some u) → Answers s i (run u)) : Answers s i (s.withUnit k run) := by
  rcases withUnit_cases s k run with ⟨-, e⟩ | ⟨-, e⟩ | ⟨u, hu, e⟩ <;> rw [e]
  · exact .failed _ (by decide)
  · exact .failed _ (by decide)
  · exact h u hu

/-- An active `PROCESS` by kind. -/
theorem answers_processActive (s : State) (k : Nat) (u : EffectUnit) (x : Sample) (h : s.slots[k]? = some (some u))
    (ha : u.active = true) : Answers s (.process k x) (processActive k u x s) := by
  cases he : u.effect with
  | boost v =>
    simp only [processActive, he]
    exact .ran _ _ (.boost k x u v h ha he)
  | distortion r =>
    simp only [processActive, he]
    exact .ran _ _ (.distortion k x u r h ha he)
  | fuzz r =>
    simp only [processActive, he]
    exact .ran _ _ (.fuzz k x u r h ha he)
  | tremolo t =>
    simp only [processActive, he]
    exact .ran _ _ (.tremolo k x u t h ha he)
  | delay d =>
    simp only [processActive, he, processDelay]
    rcases hy : delayStep s.config.rounding d x with _ | ⟨y, d'⟩
    · exact .delayFault k x u d rfl h he hy
    · exact .ran _ _ (.delay k x u d d' y h ha he hy)
  | adsrGain b =>
    simp only [processActive, he]
    exact .ran _ _ (.adsr k x u b h ha he)
  | pitchShift w =>
    simp only [processActive, he]
    exact .ran _ _ (.pitch k x u w h ha he)
  | compSk r =>
    simp only [processActive, he, processComp]
    rcases ht : kneeTarget s.config r (level x) with _ | tg
    · exact .kneeFault k x u r rfl h he ht
    · exact .ran _ _ (.compSk k x u r tg h ha he ht)
  | compLog r =>
    simp only [processActive, he, processComp]
    rcases ht : logTarget s.config r (level x) with _ | tg
    · exact .logFault k x u r rfl h he ht
    · exact .ran _ _ (.compLog k x u r tg h ha he ht)

/-- Everything a command can do. -/
theorem exec_answers (i : Instr) (s : State) : Answers s i (exec i s) := by
  cases i with
  | nop => exact .ran _ _ .nop
  | construct i k => exact answers_checkSlot s _ i _ fun h => .ran _ _ (.construct i k h)
  | destroy i => exact answers_checkSlot s _ i _ fun h => .ran _ _ (.destroy i h)
  | dup i j =>
    refine answers_checkSlot s _ j _ fun hj => answers_withUnit s _ i _ fun u hu => ?_
    by_cases hn : i = j
    · subst hn
      rw [if_pos rfl]
      exact .ran _ _ (.dupSelf i u hu)
    · rw [if_neg hn]
      exact .ran _ _ (.dup i j u hu hj hn)
  | setActive i b => exact answers_withUnit s _ i _ fun u hu => .ran _ _ (.setActive i b u hu)
  | getActive i => exact answers_withUnit s _ i _ fun u hu => .ran _ _ (.getActive i u hu)
  | setId i n => exact answers_withUnit s _ i _ fun u hu => .ran _ _ (.setId i n u hu)
  | getId i => exact answers_withUnit s _ i _ fun u hu => .ran _ _ (.getId i u hu)
  | setParam i r v =>
    refine answers_withUnit s _ i _ fun u hu => ?_
    rcases hr : (regMap u.effect.kind)[r]? with _ | ⟨reg, _ | _⟩
    · exact .failed _ (by decide)
    · exact .ran _ _ (.setParam i r v u reg hu hr)
    · exact .failed _ (by decide)
  | getParam i r =>
    refine answers_withUnit s _ i _ fun u hu => ?_
    rcases hr : u.effect.regWords[r]? with _ | w
    · exact .failed _ (by decide)
    · exact .ran _ _ (.getParam i r u w hu hr)
  | process i x =>
    refine answers_withUnit s _ i _ fun u hu => ?_
    rcases ha : u.active with _ | _
    · rw [if_neg (by simp)]
      exact .ran _ _ (.bypass i x u hu ha)
    · rw [if_pos rfl]
      exact answers_processActive s i u x hu ha
  | bufRd i k =>
    refine answers_withUnit s _ i _ fun u hu => ?_
    rcases hz : bufElement k.toNat u.effect with _ | z
    · exact .failed _ (by decide)
    · exact .ran _ _ (.bufRd i k u z hu hz)
  | linkWr a b => exact .ran _ _ (.linkWr a b)
  | linkRd => exact .ran _ _ .linkRd
  | getStatus => exact .ran _ _ .getStatus

/-- What a command that reached a next state did. -/
theorem exec_next_cases (i : Instr) (s t : State) (h : exec i s = .next t) :
    (∃ st, st ≠ .ok ∧ t = s.respond st 0) ∨ ∃ r v, Ran s i r v ∧ t = r.respond .ok v := by
  have a := exec_answers i s
  rw [h] at a
  cases a with
  | failed st hst => exact .inl ⟨st, hst, rfl⟩
  | ran r v hr => exact .inr ⟨r, v, hr, rfl⟩

end Sys2Proof.Machine
end

