-- ==== Sys2Proof/Laws/Invariant.lean ====
section
/-! SUPPORT. The invariant of 10_state.md R40: the default arguments are legal, a state that shares its slots with a
state in range is in range, and each operation that makes a slot's content makes one in range. -/

namespace Sys2Proof.Machine

/-- The default arguments of R5 are legal. -/
theorem standardConfig_ok : ConfigOk standardConfig := by
  refine ⟨by decide, by decide, ?_, ?_, by decide, by decide, by decide, ?_, ?_, by decide⟩
  · have h : standardConfig.kneeS.all (fun w => decide (w.toNat ≤ 65536)) = true := by rfl
    simpa using h
  · rfl
  · have h : standardConfig.logThr.all (fun w => decide (w.toNat ≤ 65536)) = true := by rfl
    simpa using h
  · rfl

/-- What a slot of a state in range holds is in range. -/
theorem effectOk_of_inv {s : State} (h : Inv s) {i : Nat} {u : EffectUnit} (hu : s.slots[i]? = some (some u)) :
    effectOk s.config u.effect = true := h.2.2.2 _ (List.mem_of_getElem? hu)

/-- A state with the arguments and the slots of a state in range is in range: the invariant is about nothing
else. -/
theorem inv_of_same {s t : State} (h : Inv s) (hc : t.config = s.config) (hs : t.slots = s.slots) : Inv t := by
  refine ⟨hc ▸ h.1, ?_, ?_, ?_⟩
  · unfold State.nslot
    rw [hs]
    exact h.2.1
  · unfold State.nslot
    rw [hs]
    exact h.2.2.1
  · rw [hs, hc]
    exact h.2.2.2

/-- Writing one slot with a content in range keeps the invariant. -/
theorem inv_of_set {s t : State} (h : Inv s) (i : Nat) (v : Slot) (hv : slotOk s.config v = true)
    (hc : t.config = s.config) (hs : t.slots = s.slots.set i v) : Inv t := by
  refine ⟨hc ▸ h.1, ?_, ?_, ?_⟩
  · unfold State.nslot
    rw [hs, List.length_set]
    exact h.2.1
  · unfold State.nslot
    rw [hs, List.length_set]
    exact h.2.2.1
  · rw [hs, hc]
    intro slot hm
    rcases List.mem_or_eq_of_mem_set hm with hm | rfl
    · exact h.2.2.2 _ hm
    · exact hv

/-- A fresh instance is in range (R42). -/
theorem constructEffect_ok (c : Config) (h : ConfigOk c) (k : Kind) : effectOk c (constructEffect c k) = true := by
  obtain ⟨-, -, -, -, -, -, -, -, -, d1, d2, d3, d4, d5, d6, d7, d8, d9, d10, d11⟩ := h
  cases k with
  | boost => rfl
  | adsrGain => rfl
  | pitchShift => rfl
  | distortion => exact decide_eq_true ⟨d1, d2⟩
  | fuzz => exact decide_eq_true d3
  | tremolo => exact decide_eq_true ⟨d4, d9⟩
  | delay => exact decide_eq_true (delayFill_ok c _ d5 d6)
  | compSk =>
    exact decide_eq_true ⟨Nat.zero_le _, show c.defaults.thresholdPercent.toNat ≤ 100 by omega, d10, d11⟩
  | compLog => exact decide_eq_true ⟨d7, d8, d10, d11⟩

/-- A register write of a content in range leaves a content in range (R120, R121). -/
theorem writeParam_ok (c : Config) (e : Effect) (reg : Reg) (v : Word) (h : effectOk c e = true) :
    effectOk c (writeParam c e reg v) = true := by
  unfold writeParam
  cases e with
  | boost => rfl
  | adsrGain => rfl
  | pitchShift => rfl
  | distortion r =>
    have h := of_decide_eq_true h
    have hv := wmin_le v 32767
    apply decide_eq_true
    cases reg <;> simp_all [DistortionRegs.put, wclamp, Effect.kind]
  | fuzz r =>
    have h := of_decide_eq_true h
    have hv := wmin_le v 32767
    apply decide_eq_true
    cases reg <;> simp_all [FuzzRegs.put, wclamp, Effect.kind]
  | tremolo t =>
    have h := of_decide_eq_true h
    have hv := wmin_le v 100
    apply decide_eq_true
    cases reg <;> first | exact h | exact tremoloLower_ok _ h.1 | exact ⟨hv, h.2⟩
  | delay d =>
    obtain ⟨h1, h2, h3⟩ := of_decide_eq_true h
    have hv := wmin_le v 0x10000
    apply decide_eq_true
    cases reg <;> first
      | exact ⟨h1, h2, h3⟩
      | exact ⟨hv, h2, h3⟩
      | exact ⟨h1, hv, h3⟩
      | exact delayResize_ok c _ h1 h2 h3.2.2.1 h3.2.2.2.1 h3.2.2.2.2
  | compSk r =>
    have h := of_decide_eq_true h
    have hv := wmin_le v 100
    apply decide_eq_true
    cases reg <;> first | exact h | exact ⟨Nat.zero_le _, hv, h.2.2⟩
  | compLog r =>
    have h := of_decide_eq_true h
    have hv := wclampBetween_range 1 v 99 (by decide)
    apply decide_eq_true
    cases reg <;> first | exact h | exact ⟨hv.1, hv.2, h.2.2⟩

end Sys2Proof.Machine
end

