-- ==== Sys2Proof/Laws/PerInstr.lean ====
section
/-! SUPPORT. Statements about every instruction, one lemma per constructor. The family `EncodedFields` says
which fields the command word of an instruction carries (30_encoding.md R81, R82). -/

namespace Sys2Proof.Laws.EncodedFields

/-- The opcode of R83. -/
def opcode : Instr → BitVec 8
  | .nop => 0x00
  | .construct _ _ => 0x01
  | .destroy _ => 0x02
  | .dup _ _ => 0x03
  | .setActive _ _ => 0x04
  | .getActive _ => 0x05
  | .setId _ _ => 0x06
  | .getId _ => 0x07
  | .setParam _ _ _ => 0x08
  | .getParam _ _ => 0x09
  | .process _ _ => 0x0A
  | .bufRd _ _ => 0x0B
  | .linkWr _ _ => 0x0C
  | .linkRd => 0x0D
  | .getStatus => 0x0E

/-- The slot index the format of R82 puts in `cmd[23:20]`; 0 where the format has no slot field. -/
def slotIndex : Instr → Nat
  | .nop => 0
  | .construct i _ => i
  | .destroy i => i
  | .dup i _ => i
  | .setActive i _ => i
  | .getActive i => i
  | .setId i _ => i
  | .getId i => i
  | .setParam i _ _ => i
  | .getParam i _ => i
  | .process i _ => i
  | .bufRd i _ => i
  | .linkWr _ _ => 0
  | .linkRd => 0
  | .getStatus => 0

/-- The opcode and the slot field of the encoded word are those of the instruction. -/
def Statement (i : Instr) : Prop :=
  WellFormed i = true → (fieldsOf (encode i).cmd).op = opcode i ∧ (fieldsOf (encode i).cmd).slot.toNat = slotIndex i

theorem nop : Statement .nop := fun _ => ⟨by decide, by decide⟩
theorem construct (i : Nat) (k : Kind) : Statement (.construct i k) := fun h => by
  simp_all [encode, encodeCmd, opcode, slotIndex, WellFormed]
theorem destroy (i : Nat) : Statement (.destroy i) := fun h => by
  simp_all [encode, encodeCmd, opcode, slotIndex, WellFormed]
theorem dup (i j : Nat) : Statement (.dup i j) := fun h => by
  simp_all [encode, encodeCmd, opcode, slotIndex, WellFormed]
theorem setActive (i : Nat) (b : Bool) : Statement (.setActive i b) := fun h => by
  simp_all [encode, encodeCmd, opcode, slotIndex, WellFormed]
theorem getActive (i : Nat) : Statement (.getActive i) := fun h => by
  simp_all [encode, encodeCmd, opcode, slotIndex, WellFormed]
theorem setId (i : Nat) (n : Word) : Statement (.setId i n) := fun h => by
  simp_all [encode, encodeCmd, opcode, slotIndex, WellFormed]
theorem getId (i : Nat) : Statement (.getId i) := fun h => by
  simp_all [encode, encodeCmd, opcode, slotIndex, WellFormed]
theorem setParam (i r : Nat) (v : Word) : Statement (.setParam i r v) := fun h => by
  simp_all [encode, encodeCmd, opcode, slotIndex, WellFormed]
theorem getParam (i r : Nat) : Statement (.getParam i r) := fun h => by
  simp_all [encode, encodeCmd, opcode, slotIndex, WellFormed]
theorem process (i : Nat) (x : Sample) : Statement (.process i x) := fun h => by
  simp_all [encode, encodeCmd, opcode, slotIndex, WellFormed]
theorem bufRd (i : Nat) (k : Word) : Statement (.bufRd i k) := fun h => by
  simp_all [encode, encodeCmd, opcode, slotIndex, WellFormed]
theorem linkWr (a b : Sample) : Statement (.linkWr a b) := fun _ => by
  simp [encode, encodeCmd, opcode, slotIndex]
theorem linkRd : Statement .linkRd := fun _ => ⟨by decide, by decide⟩
theorem getStatus : Statement .getStatus := fun _ => ⟨by decide, by decide⟩

end Sys2Proof.Laws.EncodedFields
end

