-- ==== Sys2Proof/Tests/Slice0.lean ====
section
/-! SUPPORT. Small tests of one step each, with expected results from the vectors of spec/95_test_vectors.md (by section) or from the
rule named, and after them, for each statement with hypotheses, a witness that meets them at the ends of their ranges. -/

namespace Sys2Proof.Tests

open Sys2Proof Sys2Proof.Machine Sys2Proof.Spec

/-! ## The unit the tests run on -/

/-- An active instance with the identifier -1. -/
def on (e : Effect) : EffectUnit := ⟨0xFFFFFFFF, true, e⟩

/-- The same bypassed. -/
def off (e : Effect) : EffectUnit := ⟨0xFFFFFFFF, false, e⟩

/-- Tremolo with half period 4 and depth 50 (T1). -/
def trem (counter : Word) (dir : Bool) : TremoloRegs := ⟨8, 50, 1000, counter, dir⟩

/-- Tremolo with half period 0 (T2). -/
def tremFlat : TremoloRegs := ⟨1, 50, 1000, 0, false⟩

/-- Delay of three elements, depth 0.5, feedback 1.0 (D1). -/
def line (cursor : Word) (mem : Memory) : DelayRegs := ⟨3, 0x8000, 0x10000, 1000, 3, cursor, mem⟩

/-- Delay of length 0 (D4). -/
def lineEmpty : DelayRegs := ⟨0, 0x8000, 0x10000, 44100, 0, 0, []⟩

/-- Delay of three elements without wet signal (E7). -/
def lineDry : DelayRegs := ⟨3, 0, 0x10000, 1000, 3, 0, []⟩

/-- A compressor with the defaults at rest (R32). -/
def comp : CompRegs := ⟨44100, 10, 100, 50, 0x20000, 0x40000000, 0x40000000⟩

/-- A compressor whose gain follows its target at once, ratio 4.0 (C6). -/
def compFast : CompRegs := ⟨0, 10, 100, 50, 0x40000, 0x40000000, 0x40000000⟩

/-- Sixteen slots, one of them empty, and a loaded pair. -/
def demo : State :=
  { State.resetWith standardConfig 0 with
    slots :=
      [ some (on (.boost 0x20000)),
        some (on (.tremolo (trem 0 false))),
        some (on (.delay (line 0 []))),
        some (on (.adsrGain 0x10000)),
        some (on (.pitchShift 0x10000)),
        some (on (.compSk comp)),
        some (on (.compLog comp)),
        some (on (.distortion ⟨4990, 6500⟩)),
        some (on (.fuzz ⟨0x68000, 300⟩)),
        some (off (.tremolo (trem 3 false))),
        some (on (.delay lineEmpty)),
        some (on (.tremolo tremFlat)),
        none,
        some (on (.delay (line 2 [(0, 100), (1, 200)]))),
        some (on (.tremolo (trem 4 false))),
        some (on (.compSk compFast)) ]
    pair0 := 2000
    pair1 := BitVec.ofInt 16 (-3000) }

/-- Arguments whose running state starts elsewhere than by default: the counter on the half period, counting down, one gain 0. -/
def startedConfig : Config :=
  { standardConfig with
    defaults := { standardDefaults 30 with counter := 44100, dir := true, currentGain := 0 } }

/-- What the command answered. -/
def answer (r : Result) : Option Response :=
  match r with
  | .next t => t.responses.getLast?
  | .fault _ => none
  | .refused _ => none

/-- The command completed with `OK` and this result. -/
def gives (r : Result) (v : Int) : Bool := answer r == some ⟨.ok, BitVec.ofInt 32 v⟩

/-- What slot `i` holds afterwards. -/
def holdsAfter (r : Result) (i : Nat) : Option EffectUnit :=
  match r with
  | .next t => (t.slots[i]?).join
  | .fault _ => none
  | .refused _ => none

/-- The pair and the flag afterwards. -/
def linkAfter (r : Result) : Option (Int × Int × Bool) :=
  match r with
  | .next t => some (t.pair0.toInt, t.pair1.toInt, t.engaged)
  | .fault _ => none
  | .refused _ => none

/-- The event trace afterwards. -/
def eventsAfter (r : Result) : List Event :=
  match r with
  | .next t => t.events
  | .fault _ => []
  | .refused _ => []

/-- A host that presents one request to a unit just reset. -/
def asked (cmd opd : Word) : Result := step (State.reset.present ⟨cmd, opd⟩)

/-! ## Well-formedness: an ill-formed term for each check (R81) -/

theorem test_wf_construct : WellFormed (.construct 16 .boost) = false := by decide
theorem test_wf_destroy : WellFormed (.destroy 16) = false := by decide
theorem test_wf_dup_src : WellFormed (.dup 16 0) = false := by decide
theorem test_wf_dup_dst : WellFormed (.dup 0 16) = false := by decide
theorem test_wf_setActive : WellFormed (.setActive 16 true) = false := by decide
theorem test_wf_getActive : WellFormed (.getActive 16) = false := by decide
theorem test_wf_setId : WellFormed (.setId 16 0) = false := by decide
theorem test_wf_getId : WellFormed (.getId 16) = false := by decide
theorem test_wf_setParam_slot : WellFormed (.setParam 16 0 0) = false := by decide
theorem test_wf_setParam_reg : WellFormed (.setParam 0 256 0) = false := by decide
theorem test_wf_getParam_slot : WellFormed (.getParam 16 0) = false := by decide
theorem test_wf_getParam_reg : WellFormed (.getParam 0 256) = false := by decide
theorem test_wf_process : WellFormed (.process 16 0) = false := by decide
theorem test_wf_bufRd : WellFormed (.bufRd 16 0) = false := by decide

/-! ## Decoding: every constructor, from words written out from R81 to R83 and section 2.1 -/

theorem test_decode_nop : decode ⟨0x00000000, 0xDEADBEEF⟩ = .ok .nop := by rfl
theorem test_decode_construct : decode ⟨0x01F90000, 0⟩ = .ok (.construct 15 .compLog) := by rfl
theorem test_decode_destroy : decode ⟨0x02900000, 0⟩ = .ok (.destroy 9) := by rfl
theorem test_decode_dup : decode ⟨0x03270000, 0⟩ = .ok (.dup 2 7) := by rfl
theorem test_decode_setActive : decode ⟨0x04200001, 0⟩ = .ok (.setActive 2 true) := by rfl
theorem test_decode_getActive : decode ⟨0x05200000, 0⟩ = .ok (.getActive 2) := by rfl
theorem test_decode_setId : decode ⟨0x06200000, 0xFFFFFFFB⟩ = .ok (.setId 2 0xFFFFFFFB) := by rfl
theorem test_decode_getId : decode ⟨0x07700000, 0⟩ = .ok (.getId 7) := by rfl
theorem test_decode_setParam : decode ⟨0x08200001, 0x4B⟩ = .ok (.setParam 2 1 75) := by rfl
theorem test_decode_getParam : decode ⟨0x090000FF, 0⟩ = .ok (.getParam 0 255) := by rfl
theorem test_decode_process : decode ⟨0x0AC0FC18, 0⟩ = .ok (.process 12 0xFC18) := by rfl
theorem test_decode_bufRd : decode ⟨0x0B000000, 0xAC43⟩ = .ok (.bufRd 0 44099) := by rfl
theorem test_decode_linkWr : decode ⟨0x0C000000, 0xFFFE03E8⟩ = .ok (.linkWr 1000 0xFFFE) := by rfl
theorem test_decode_linkRd : decode ⟨0x0D000000, 0⟩ = .ok .linkRd := by rfl
theorem test_decode_getStatus : decode ⟨0x0E000000, 0⟩ = .ok .getStatus := by rfl

/-- The kind codes of R24, and the codes `CONSTRUCT` rejects (R88). -/
theorem test_kind_codes : ([0, 1, 2, 3, 4, 5, 6, 7, 8, 9, 10, 15] : List (BitVec 4)).map Kind.ofCode =
    [none, some .boost, some .distortion, some .fuzz, some .tremolo, some .delay, some .adsrGain,
      some .pitchShift, some .compSk, some .compLog, none, none] := by decide

/-- Words section 2.2 lists as `ERR_ILLEGAL`. -/
theorem test_illegal_words_by_opcode : ([0x0F000000, 0x55000000, 0xFFFFFFFF] : List Word).all
    (fun w => (decode ⟨w, 5⟩).toOption.isNone) = true := by decide
theorem test_illegal_words_by_kind : ([0x01000000, 0x010A0000, 0x010F0000, 0x01F00000] : List Word).all
    (fun w => (decode ⟨w, 5⟩).toOption.isNone) = true := by decide
theorem test_illegal_words_by_zero_field : ([0x00100000, 0x01010001, 0x02010000, 0x0A010005, 0x09000100, 0x04000002,
    0x0C100000, 0x0D000001, 0x0E010000] : List Word).all (fun w => (decode ⟨w, 5⟩).toOption.isNone) = true := by decide

theorem test_table_word : decodeTableWord 32 0x0A2003E8 = some (.process 2 1000) := by rfl
theorem test_table_word_long : decodeTableWord 64 0x0000004B08200001 = some (.setParam 2 1 75) := by rfl

/-! ## One step of each command -/

/-- Section 2.2, first rows. -/
theorem test_illegal : answer (asked 0x0F000000 0) = some ⟨.errIllegal, 0⟩ := by decide
theorem test_slot : answer (asked 0x01810000 0) = some ⟨.errSlot, 0⟩ := by decide
theorem test_empty : answer (asked 0x0A000005 0) = some ⟨.errEmpty, 0⟩ := by decide
theorem test_dup_slot_before_empty : answer (asked 0x03090000 0) = some ⟨.errSlot, 0⟩ := by decide
theorem test_nop : answer (asked 0x00000000 0xDEADBEEF) = some ⟨.ok, 0⟩ := by decide

theorem test_withFetchWord :
    answer (step (State.reset.withFetchWord 32 0x0A000005)) = some ⟨.errEmpty, 0⟩ := by decide

/-- Section 2.7: `construct s1, PITCHSHIFT` emits two events. -/
theorem test_construct : eventsAfter (asked 0x01170000 0) = [.rbNew 1, .rbSetInc 1 0x10000] := by decide

/-- R42, D8: the start of the running state is a part of the defaults argument; the length of a Delay is computed (R112). -/
theorem test_construct_registers :
    holdsAfter (exec (.construct 0 .tremolo) (State.resetWith startedConfig 1)) 0 =
      some (on (.tremolo ⟨2000, 50, 44100, 44100, true⟩)) ∧
    holdsAfter (exec (.construct 0 .compSk) (State.resetWith startedConfig 1)) 0 =
      some (on (.compSk ⟨44100, 10, 100, 50, 0x20000, 0, 0x40000000⟩)) ∧
    holdsAfter (exec (.construct 0 .delay) State.reset) 0 =
      some (on (.delay ⟨1000, 0x8000, 0x10000, 44100, 44100, 0, []⟩)) := by decide

theorem test_destroy : holdsAfter (exec (.destroy 0) demo) 0 = none := by decide
theorem test_destroy_no_event : eventsAfter (exec (.destroy 3) demo) = [] := by decide

/-- Section 2.7: `dup` of a PitchShift; D7: `dup` of a Delay. -/
theorem test_dup_pitch : eventsAfter (exec (.dup 4 12) demo) = [.rbClone 4 12, .rbSetInc 12 0x10000] := by decide
theorem test_dup_delay : holdsAfter (exec (.dup 13 0) demo) 0 = some (on (.delay (line 2 [(0, 100), (1, 200)]))) := by
  decide

theorem test_setActive : (holdsAfter (exec (.setActive 1 false) demo) 1).map (·.active) = some false := by decide
theorem test_getActive : gives (exec (.getActive 9) demo) 0 = true := by decide
theorem test_setId : (holdsAfter (exec (.setId 1 42) demo) 1).map (·.id) = some 42 := by decide
theorem test_getId : gives (exec (.getId 1) demo) (-1) = true := by decide

/-- Section 2.3: `DEPTHPERCENT <- 250` reads 100. D2: `DURATION_MS <- 5` resizes and zero-fills. -/
theorem test_setParam_clamps :
    holdsAfter (exec (.setParam 1 1 250) demo) 1 = some (on (.tremolo ⟨8, 100, 1000, 0, false⟩)) := by decide
theorem test_setParam_resizes :
    holdsAfter (exec (.setParam 13 0 5) demo) 13 =
      some (on (.delay ⟨5, 0x8000, 0x10000, 1000, 5, 0, []⟩)) := by decide

/-- T3: the half period saturates. T1: `RATE_COUNT_HALF = 4`. -/
theorem test_half_saturates : TremoloRegs.half ⟨0xFFFFFFFF, 50, 0xFFFFFFFF, 0, false⟩ = 0xFFFFFFFF := by decide
theorem test_getParam : gives (exec (.getParam 1 3) demo) 4 = true := by decide

/-- `PROCESS`, the result by kind: section 2.4 (Boost 2.0, Distortion and Fuzz with the defaults), T1 row 0, T2 (half period
0), D1 row 1, D4 (length 0), C1 and C2 at `x = 32767`, E5 (bypass). -/
theorem test_process_result :
    gives (exec (.process 0 100) demo) 200 = true ∧ gives (exec (.process 0 20000) demo) 32767 = true ∧
    gives (exec (.process 7 4991) demo) 6500 = true ∧ gives (exec (.process 7 0x8000) demo) (-6500) = true ∧
    gives (exec (.process 8 100) demo) 38 = true ∧ gives (exec (.process 8 0xFF9C) demo) (-38) = true ∧
    gives (exec (.process 1 1000) demo) 500 = true ∧ gives (exec (.process 11 0xFC17) demo) (-500) = true ∧
    gives (exec (.process 2 100) demo) 50 = true ∧ gives (exec (.process 10 0xFC17) demo) (-500) = true ∧
    gives (exec (.process 5 32767) demo) 32752 = true ∧ gives (exec (.process 6 32767) demo) 32735 = true ∧
    gives (exec (.process 9 0x8000) demo) (-32768) = true := by decide

/-- `PROCESS`, the state: T1 row 4 (the triangle turns), D1 rows 1 and 3 (the cursor wraps), C6 row 1 (the flag is set below 0.9);
by R224 the pair (2000, -3000) is scaled by 751619276 / 2^30 and rounded toward zero. -/
theorem test_process_state :
    holdsAfter (exec (.process 14 1000) demo) 14 = some (on (.tremolo (trem 3 true))) ∧
    holdsAfter (exec (.process 2 100) demo) 2 = some (on (.delay (line 1 [(0, 100)]))) ∧
    holdsAfter (exec (.process 13 300) demo) 13 =
      some (on (.delay (line 0 [(0, 100), (1, 200), (2, 300)]))) ∧
    linkAfter (exec (.process 15 32767) demo) = some (1399, -2099, true) := by decide

/-- Section 2.7: the level of a drawn word above 1.0 is 1.0, and the product is truncated. -/
theorem test_adsr : adsrSample .truncate 0x10000 0xFFFFFFFF 0x8000 = -32767 ∧
    adsrSample .truncate 0x10000 0x4000 0xFFF9 = -1 := by decide

/-- Section 2.7: the write comes before the read, whose sample is a free value. -/
theorem test_pitch_events :
    eventsAfter (exec (.process 4 100) demo) = [.rbWrite 4 100, .rbRead 4 (Config.rbRead 0)] := by rfl

theorem test_bufRd : gives (exec (.bufRd 13 1) demo) 200 = true := by decide
theorem test_bufRd_beyond : answer (exec (.bufRd 13 3) demo) = some ⟨.errReg, 0⟩ := by decide

theorem test_linkWr : linkAfter (exec (.linkWr 30000 0x8000) demo) = some (30000, -32768, false) := by decide
theorem test_linkRd : answer (exec .linkRd demo) = some ⟨.ok, 0xF44807D0⟩ := by decide

/-- Section 2.2, session (b). -/
theorem test_getStatus :
    answer (exec .getStatus { demo with engaged := true, firstErr := .errEmpty }) = some ⟨.ok, 0x31⟩ := by decide
theorem test_getStatus_keeps :
    answer (exec .getStatus { demo with firstErr := .errReg }) = some ⟨.ok, 0x40⟩ := by decide

/-- R271: the reset input empties the slots and clears the globals. -/
theorem test_assertReset : demo.assertReset.slots.all (· == none) = true := by decide

/-! ## Witnesses: every hypothesis of a statement can be met -/

/-- The unit of the tests is in range. -/
theorem demo_inv : Inv demo := ⟨standardConfig_ok, by decide, by decide, by decide⟩

theorem witness_reset : ∃ s, s = State.reset ∨ ∃ c n, s = State.resetWith c n := ⟨_, .inl rfl⟩

/-- `NSLOT` at both ends. -/
theorem witness_resetMeetsInvariant :
    ConfigOk standardConfig ∧ (1 ≤ 1 ∧ 1 ≤ 16) ∧ (1 ≤ 16 ∧ 16 ≤ 16) ∧ Inv demo :=
  ⟨standardConfig_ok, by decide, by decide, demo_inv⟩

/-- Legal arguments other than the default ones. -/
theorem witness_configOk : ConfigOk startedConfig :=
  let ⟨h1, h2, h3, h4, h5, h6, h7, h8, h9, _⟩ := standardConfig_ok
  ⟨h1, h2, h3, h4, h5, h6, h7, h8, h9, by decide⟩

theorem witness_wellFormed : WellFormed (.setParam 15 255 0xFFFFFFFF) = true ∧ WellFormed (.dup 15 15) = true ∧
    WellFormed (.process 0 0x8000) = true := by decide

/-- One word with an operand in the operand word, one that ignores it. -/
theorem witness_encodeOfDecode : decode ⟨0x0BF00000, 0xFFFFFFFF⟩ = .ok (.bufRd 15 0xFFFFFFFF) ∧
    decode ⟨0x05F00000, 0xFFFFFFFF⟩ = .ok (.getActive 15) := ⟨rfl, rfl⟩

/-- Legal and illegal words on both sides of the opcode and kind ranges. -/
theorem witness_legal : LegalCmd 0x0E000000 ∧ LegalCmd 0x01010000 ∧ LegalCmd 0x01090000 ∧ ¬ LegalCmd 0x0F000000 ∧
    ¬ LegalCmd 0x01000000 ∧ ¬ LegalCmd 0x010A0000 ∧ ¬ LegalCmd 0x00100000 := by decide

theorem witness_step : (demo.present ⟨0x0A000064, 0⟩).program[(demo.present ⟨0x0A000064, 0⟩).hostIndex]? =
      some ⟨0x0A000064, 0⟩ ∧ decode ⟨0x0A000064, 0⟩ = .ok (.process 0 100) ∧
    decodeTableWord 32 0x0A000064 = some (.process 0 100) := ⟨rfl, rfl, rfl⟩

theorem witness_illegal : (demo.present ⟨0x0F000000, 0⟩).program[(demo.present ⟨0x0F000000, 0⟩).hostIndex]? =
    some ⟨0x0F000000, 0⟩ ∧ ¬ LegalCmd 0x0F000000 := ⟨rfl, by decide⟩

theorem witness_idle : State.reset.program[State.reset.hostIndex]? = none := rfl

/-- A request that steps, with a legal word and with an illegal one. -/
theorem witness_steps : (∃ t, step (demo.present ⟨0x0A000064, 0⟩) = .next t) ∧
    ∃ t, step (demo.present ⟨0x0F000000, 0⟩) = .next t := ⟨⟨_, rfl⟩, _, rfl⟩

/-- Slot 16 is the first that does not exist; a `DUP` with only the destination missing. -/
theorem witness_missingSlot : (∃ k ∈ slotOperands (.process 16 0), demo.slots.length ≤ k) ∧
    ∃ k ∈ slotOperands (.dup 0 16), demo.slots.length ≤ k := by decide

theorem witness_emptySlot : neededUnit (.dup 12 15) = some 12 ∧
    (∀ j ∈ slotOperands (.dup 12 15), j < demo.slots.length) ∧ demo.slots[12]? = some none := by decide

/-- The first read-only register, the first undefined one, the first element beyond `LEN`, and a slot that is no Delay. -/
theorem witness_badRegister : Holds demo 1 (on (.tremolo (trem 0 false))) ∧ writableCount .tremolo ≤ 3 ∧
    regCount .tremolo ≤ 6 ∧ Holds demo 2 (on (.delay (line 0 []))) ∧ (line 0 []).len.toNat ≤ (3 : Word).toNat ∧
    ∀ d, (on (.tremolo (trem 0 false))).effect = .delay d → d.len.toNat ≤ (0 : Word).toNat :=
  ⟨by decide, by decide, by decide, by decide, by decide, nofun⟩

/-- A command that fails and one that does not. -/
theorem witness_exec : (∃ t, exec (.getId 12) demo = .next t ∧ t.responses = [⟨.errEmpty, 0⟩]) ∧
    ∃ t, exec (.getId 0) demo = .next t ∧ t.responses = [⟨.ok, 0xFFFFFFFF⟩] := ⟨⟨_, rfl, rfl⟩, _, rfl, rfl⟩

/-- The first and the last slot, and an empty one. -/
theorem witness_slots : 0 < demo.slots.length ∧ 12 < demo.slots.length ∧ 15 < demo.slots.length ∧
    demo.config = standardConfig := ⟨by decide, by decide, by decide, rfl⟩

/-- `DUP` onto itself and onto another slot. -/
theorem witness_dup : Holds demo 4 (on (.pitchShift 0x10000)) ∧ 4 < demo.slots.length ∧ 15 < demo.slots.length ∧ 4 ≠ 15 := by
  decide

/-- The last writable register without side effect of a kind that has others, and the first of one that has none. -/
theorem witness_setParam : Holds demo 2 (on (.delay (line 0 []))) ∧ 2 < writableCount .delay ∧ plainWrite .delay 2 = true ∧
    Holds demo 6 (on (.compLog comp)) ∧ 4 < writableCount .compLog ∧ plainWrite .compLog 4 = true := by decide

/-- Counter 4: a new half period equal to it (kept) by either register, and a smaller one (lowered). -/
theorem witness_setParamTremolo : Holds demo 14 (on (.tremolo (trem 4 false))) ∧
    (trem 4 false).counter.toNat ≤ halfOf 1000 8 ∧ ¬ (trem 4 false).counter.toNat ≤ halfOf 1000 7 ∧
    ¬ (trem 4 false).counter.toNat ≤ halfOf 0 8 := by decide

/-- Both outcomes of both registers: the length stays 3 or becomes another, 0 and the cap among them. -/
theorem witness_setParamDelay : Holds demo 13 (on (.delay (line 2 [(0, 100), (1, 200)]))) ∧
    targetOf standardConfig 1000 3 = 3 ∧ targetOf standardConfig 1001 3 = 3 ∧ targetOf standardConfig 1000 0 = 0 ∧
    targetOf standardConfig 1500 3 = 4 ∧ targetOf standardConfig 0xFFFFFFFF 3 = 1048576 := by decide

theorem witness_setParamPitch : Holds demo 4 (on (.pitchShift 0x10000)) := by decide

/-- The first and the last register of a kind. -/
theorem witness_getParam : Holds demo 1 (on (.tremolo (trem 0 false))) ∧
    regValue (.tremolo (trem 0 false)) 0 = some 8 ∧ regValue (.tremolo (trem 0 false)) 5 = some 0 ∧
    regValue (.tremolo (trem 0 false)) 6 = none := by decide

theorem witness_getterAfterSetter : Holds demo 10 (on (.delay lineEmpty)) ∧ 0 < writableCount .delay ∧
    3 < writableCount .delay := by decide

/-- The first and the last element. -/
theorem witness_bufRd : Holds demo 2 (on (.delay (line 0 []))) ∧ (0 : Word).toNat < (line 0 []).len.toNat ∧
    (2 : Word).toNat < (line 0 []).len.toNat := by decide

theorem witness_bypass : Holds demo 9 (off (.tremolo (trem 3 false))) ∧ (off (.tremolo (trem 3 false))).active = false := by
  decide

theorem witness_processBoost : Holds demo 0 (on (.boost 0x20000)) ∧ (on (.boost 0x20000)).active = true := by decide
theorem witness_processDistortion : Holds demo 7 (on (.distortion ⟨4990, 6500⟩)) := by decide
theorem witness_processFuzz : Holds demo 8 (on (.fuzz ⟨0x68000, 300⟩)) := by decide
theorem witness_processAdsr : Holds demo 3 (on (.adsrGain 0x10000)) := by decide
theorem witness_processPitch : Holds demo 4 (on (.pitchShift 0x10000)) := by decide

/-- The counter at both ends of its range. -/
theorem witness_processTremolo : Holds demo 1 (on (.tremolo (trem 0 false))) ∧ Holds demo 14 (on (.tremolo (trem 4 false))) ∧
    halfOf 1000 8 = 4 ∧ (trem 4 false).counter.toNat ≤ 4 ∧ TremoloOk (trem 0 false) ∧ TremoloOk (trem 4 false) := by decide

theorem witness_processTremoloAtRest : Holds demo 11 (on (.tremolo tremFlat)) ∧ halfOf tremFlat.sampleRate tremFlat.durationMs = 0 ∧
    TremoloOk tremFlat := by decide

/-- The cursor on the first and on the last element. -/
theorem witness_processDelay : Holds demo 2 (on (.delay (line 0 []))) ∧ (line 0 []).cursor.toNat < (line 0 []).len.toNat ∧
    Holds demo 13 (on (.delay (line 2 [(0, 100), (1, 200)]))) ∧
    (line 2 [(0, 100), (1, 200)]).cursor.toNat + 1 = (line 2 [(0, 100), (1, 200)]).len.toNat ∧
    Memory.wf (line 2 [(0, 100), (1, 200)]).mem = true ∧ Memory.wf (line 0 []).mem = true := by decide

theorem witness_processDelayOfLengthZero : Holds demo 10 (on (.delay lineEmpty)) ∧ lineEmpty.len = 0 := by decide

theorem witness_processComp : ConfigOk demo.config ∧ Holds demo 5 (on (.compSk comp)) ∧ Holds demo 6 (on (.compLog comp)) ∧
    1 ≤ comp.thresholdPercent.toNat ∧ comp.thresholdPercent.toNat ≤ 99 :=
  ⟨standardConfig_ok, by decide, by decide, by decide, by decide⟩

/-- E4: both bounds at 0 and at 32767, and `v` at, above and below the bound. -/
theorem witness_clip : clip3 4990 4990 6500 = 4990 ∧ clip3 4991 4990 6500 = 6500 ∧ clip3 (-4991) 4990 6500 = -6500 ∧
    clip3 (-32768) 32767 32767 = -32767 ∧ clip3 1 0 0 = 0 ∧
    clip 32768 = 32767 ∧ clip 32767 = 32767 ∧ clip (-32767) = -32767 ∧ clip (-32768) = -32767 := by decide

/-- R8 on every pair of signs, and the floor that D6 names. -/
theorem witness_quot : (-2 : Int) ≠ 0 ∧ quot .truncate 7 2 = 3 ∧ quot .truncate (-7) 2 = -3 ∧ quot .truncate 7 (-2) = -3 ∧
    quot .truncate (-7) (-2) = 3 ∧ quot .truncate 0 (-2) = 0 ∧ quot .floor 7 2 = 3 ∧ quot .floor (-7) 2 = -4 ∧
    quot .floor 7 (-2) = -4 ∧ quot .floor (-7) (-2) = 3 := by decide

/-- Ratios 0 and 1.0, thresholds 1 and 99. -/
theorem witness_ratio : ConfigOk standardConfig ∧ ({ comp with ratio := 0 } : CompRegs).ratio.toNat ≤ 65536 ∧
    ({ comp with ratio := 0x10000, thresholdPercent := 99 } : CompRegs).ratio.toNat ≤ 65536 ∧
    ({ comp with thresholdPercent := 1 } : CompRegs).thresholdPercent.toNat ≤ 99 :=
  ⟨standardConfig_ok, by decide, by decide, by decide⟩

/-- E3: 13106 lies below the lower knee, 13107 at table index 0 and below the upper knee. -/
theorem witness_kneeBound : inLevel 13106 < lowerKnee comp.thresholdPercent.toNat ∧
    inLevel 13107 ≤ upperKnee comp.thresholdPercent.toNat ∧ kneeIndexQ comp.thresholdPercent.toNat 13107 = 0 := by
  have h50 : comp.thresholdPercent.toNat = 50 := rfl
  rw [h50]
  refine ⟨by norm_num [inLevel, lowerKnee], by norm_num [inLevel, upperKnee], ?_⟩
  have h : ⌊100 * (inLevel 13107 - lowerKnee 50) / (upperKnee 50 - lowerKnee 50)⌋ = (0 : Int) := by
    rw [Int.floor_eq_iff]
    constructor <;> norm_num [inLevel, lowerKnee, upperKnee]
  rw [kneeIndexQ, h]
  rfl

/-- An active slot, a PitchShift slot and a bypassed one. -/
theorem witness_processAnswers : Inv demo ∧ (∃ t, exec (.process 0 0x8000) demo = .next t) ∧
    (∃ t, exec (.process 4 0) demo = .next t) ∧ (∃ t, exec (.process 9 0x8000) demo = .next t) ∧
    Effect.kind (.boost 0x20000) ≠ .pitchShift :=
  ⟨demo_inv, ⟨_, rfl⟩, ⟨_, rfl⟩, ⟨_, rfl⟩, by decide⟩

theorem witness_triangle : Holds demo 1 (on (.tremolo (trem 0 false))) ∧ 1 ≤ halfOf (trem 0 false).sampleRate (trem 0 false).durationMs ∧
    (trem 0 false).counter = 0 := by decide

/-- No sample, and as many as the line has elements. -/
theorem witness_delayDry : Holds demo 2 (on (.delay (line 0 []))) ∧ (line 0 []).cursor = 0 ∧ (line 0 []).mem = [] ∧
    ([] : List Sample).length ≤ (line 0 []).len.toNat ∧ ([100, 200, 300] : List Sample).length ≤ (line 0 []).len.toNat ∧
    DelayOk standardConfig lineDry ∧ lineDry.depth = 0 := by decide

theorem witness_delayDry_slot : Holds { demo with slots := [some (on (.delay lineDry))] } 0 (on (.delay lineDry)) := by decide

/-- One element is the shortest line; the feedback is 1.0. -/
theorem witness_impulse : Holds demo 2 (on (.delay (line 0 []))) ∧ 1 ≤ (line 0 []).len.toNat ∧
    (line 0 []).feedback.toNat = 65536 ∧
    Holds { demo with slots := [some (on (.delay ⟨1, 0x8000, 0x10000, 1000, 1, 0, []⟩))] } 0
      (on (.delay ⟨1, 0x8000, 0x10000, 1000, 1, 0, []⟩)) := by decide

theorem witness_gainMoves : Inv demo ∧ Holds demo 15 (on (.compSk compFast)) ∧ Holds demo 6 (on (.compLog comp)) :=
  ⟨demo_inv, by decide, by decide⟩

theorem witness_otherSlots : (∃ t, exec (.dup 0 1) demo = .next t) ∧ 0 ∉ writtenSlots (.dup 0 1) ∧ 2 ∉ writtenSlots (.dup 0 1) :=
  ⟨⟨_, rfl⟩, by decide, by decide⟩

theorem witness_kind : (∃ t, exec (.setParam 1 0 2000) demo = .next t) ∧ replaces (.setParam 1 0 2000) 1 = false ∧
    Holds demo 1 (on (.tremolo (trem 0 false))) := ⟨⟨_, rfl⟩, by decide, by decide⟩

/-- A compressor that changes the flag and the pair, and a wrapper that draws. -/
theorem witness_linkAndDraws : (∃ t, exec (.process 15 32767) demo = .next t ∧ t.engaged ≠ demo.engaged ∧ t.pair0 ≠ demo.pair0) ∧
    ∃ t, exec (.process 3 0) demo = .next t ∧ t.draws ≠ demo.draws :=
  ⟨⟨_, rfl, by decide, by decide⟩, _, rfl, by decide⟩

theorem witness_reads : isRead (.getActive 16) = true ∧ isRead (.bufRd 2 3) = true ∧ isRead .getStatus = true := by decide

theorem witness_ids : ∀ k, (Instr.dup 0 1) ≠ .getId k := nofun

theorem witness_invStep : Inv (demo.present ⟨0x0A207FFF, 0⟩) ∧ ∃ t, step (demo.present ⟨0x0A207FFF, 0⟩) = .next t :=
  ⟨inv_of_same demo_inv rfl rfl, _, rfl⟩

end Sys2Proof.Tests
end

section
/-! PROOFS. The statements of the scope family: the step and its instruction (00_scope.md R15), the default arguments
(R5) with what `CONSTRUCT` makes of them (10_state.md R42), and the one conversion to an integer (R8). -/

namespace Sys2Proof.Machine

open Sys2Proof.Spec

/-! ## A step on a request that decodes -/

/-- A step on a decodable request is the instruction and nothing around it (R15, R22). -/
theorem step_of_decode_ok {s : State} {r : Request} {i : Instr} (hr : s.request = some r) (hd : decode r = .ok i) :
    step s = exec i s := by
  simp [step, hr, hd]

theorem decode_of_decodeTableWord {nbits w : Nat} {i : Instr} (h : decodeTableWord nbits w = some i) :
    decode (requestOfTableWord nbits w) = .ok i := by
  unfold decodeTableWord at h
  cases hd : decode (requestOfTableWord nbits w) with
  | error e => rw [hd] at h; cases h
  | ok j => rw [hd] at h; cases h; rfl

/-- Settles O7: a word of the opcode table is presented as one request, and both clauses are then the one rule of the
step. -/
theorem stepRunsDecodedInstruction : Obligations.StepRunsDecodedInstruction :=
  ⟨fun _ _ _ hr hd => step_of_decode_ok hr hd,
   fun s nbits w _ h =>
    step_of_decode_ok (request_present s (requestOfTableWord nbits w)) (decode_of_decodeTableWord h)⟩

/-! ## The conversion of an exact quotient -/

theorem quot_truncate_natAbs (a b : Int) : (quot .truncate a b).natAbs = a.natAbs / b.natAbs :=
  Int.natAbs_tdiv a b

theorem quot_truncate_neg (a b : Int) : quot .truncate (-a) b = -quot .truncate a b := Int.neg_tdiv a b

theorem quot_truncate_nonneg {a b : Int} (h : 0 ≤ a * b) : 0 ≤ quot .truncate a b := by
  rcases mul_nonneg_iff.mp h with ⟨ha, hb⟩ | ⟨ha, hb⟩
  · exact Int.tdiv_nonneg ha hb
  · exact Int.tdiv_nonneg_of_nonpos_of_nonpos ha hb

theorem quot_truncate_nonpos {a b : Int} (h : a * b ≤ 0) : quot .truncate a b ≤ 0 := by
  have hneg : 0 ≤ quot .truncate (-a) b := quot_truncate_nonneg (by rw [neg_mul]; omega)
  rw [quot_truncate_neg] at hneg
  omega

theorem quot_floor_neg_neg (a b : Int) : quot .floor (-a) (-b) = quot .floor a b := Int.neg_fdiv_neg a b

theorem quot_floor_of_nonneg (a : Int) {b : Int} (hb : 0 ≤ b) : quot .floor a b = ⌊(a : ℚ) / b⌋ := by
  rw [Int.floor_div_cast_of_nonneg hb, Int.floor_intCast]
  exact Int.fdiv_eq_ediv_of_nonneg a hb

/-- The other value of `ROUND` is the floor of the rational quotient; a negative divisor reduces to a positive one. -/
theorem quot_floor_eq_floor (a b : Int) : quot .floor a b = ⌊(a : ℚ) / b⌋ := by
  rcases le_total 0 b with hb | hb
  · exact quot_floor_of_nonneg a hb
  · rw [← quot_floor_neg_neg, quot_floor_of_nonneg (-a) (Int.neg_nonneg_of_nonpos hb)]
    push_cast
    rw [neg_div_neg_eq]

/-- Settles O44: magnitude and sign of `tdiv`, and the floor of the rational quotient. -/
theorem quotientTruncatesTowardZero : Obligations.QuotientTruncatesTowardZero :=
  fun a b _ => ⟨quot_truncate_natAbs a b, quot_truncate_nonneg, quot_truncate_nonpos, quot_floor_eq_floor a b⟩

/-! ## The default arguments -/

theorem standardConfig_arguments : standardConfig.delayCap.toNat = 1048576 ∧ standardConfig.gainFrac.val = 30 ∧
    standardConfig.rounding = .truncate := by decide

/-- The checks R216 prints for the soft-knee table. -/
theorem kneeTable_checks :
    let k := kneeTable.map BitVec.toNat
    k.length = 101 ∧ k[0]? = some 0 ∧ k[50]? = some 32768 ∧ k[100]? = some 65536 ∧
    strictlyRising kneeTable = true ∧ List.zipWith (· + ·) k k.reverse = List.replicate 101 65536 ∧
    k.sum = 3309568 := by decide

/-- The checks R218 prints for the log table, whose entry `p` stands at place `p - 1`. -/
theorem logTable_checks :
    let l := logTable.map BitVec.toNat
    l.length = 99 ∧ l[50 - 1]? = some 9864 ∧ l[90 - 1]? = some 32768 ∧ l[99 - 1]? = some 65536 ∧
    strictlyRising logTable = true ∧ l.sum = 1377241 := by decide

/-! ## The registers of an effect unit -/

theorem zeroExtend_ofBool (b : Bool) : (BitVec.ofBool b).zeroExtend 32 = (if b then 1 else 0 : Word) := by
  cases b <;> rfl

/-- The spec's tables R25 to R32, index by index, are the list the machine reads a register from (R123). -/
theorem regValue_eq_regWords (e : Effect) (r : Nat) : regValue e r = e.regWords[r]? := by
  cases e with
  | boost v => rcases r with _ | r <;> rfl
  | distortion d => rcases r with _ | _ | r <;> rfl
  | fuzz f => rcases r with _ | _ | r <;> rfl
  | tremolo t =>
    rw [Effect.regWords, zeroExtend_ofBool]
    rcases r with _ | _ | _ | _ | _ | _ | r <;> rfl
  | delay d => rcases r with _ | _ | _ | _ | _ | _ | r <;> rfl
  | adsrGain b => rcases r with _ | r <;> rfl
  | pitchShift w => rcases r with _ | r <;> rfl
  | compSk c => rcases r with _ | _ | _ | _ | _ | _ | _ | r <;> rfl
  | compLog c => rcases r with _ | _ | _ | _ | _ | _ | _ | r <;> rfl

/-! ## What `CONSTRUCT` installs -/

theorem exec_construct_of_lt {s : State} {i : Nat} (k : Kind) (hi : i < s.nslot) :
    exec (.construct i k) s =
      .next (((s.setSlot i (some (constructUnit s.config k))).emit (constructEvents i k)).respond .ok 0) :=
  checkSlot_of_lt s i _ hi

theorem exec_construct_holds {s : State} {i : Nat} (k : Kind) (hi : i < s.nslot) :
    ∃ t, exec (.construct i k) s = .next t ∧ Holds t i (constructUnit s.config k) :=
  ⟨_, exec_construct_of_lt k hi, setSlot_get_same s i _ hi⟩

@[simp] theorem constructEffect_kind (c : Config) (k : Kind) : (constructEffect c k).kind = k := by
  cases k <;> rfl

theorem constructEffect_eq_delay {c : Config} {k : Kind} {d : DelayRegs} (h : constructEffect c k = .delay d) :
    d = delayNew c := by
  cases k with
  | delay => cases h; rfl
  | _ => cases h

theorem delayNew_mem (c : Config) : (delayNew c).mem = Memory.zero := rfl

/-! ## A fresh effect unit with the default arguments -/

theorem standardConfig_id : standardConfig.defaults.id.toInt = -1 := by decide

theorem regWords_constructEffect_standard (k : Kind) :
    (constructEffect standardConfig k).regWords = (defaultTable k).map (BitVec.ofNat 32) := by
  cases k <;> decide

theorem regValue_constructEffect_standard (k : Kind) (r : Nat) :
    regValue (constructEffect standardConfig k) r = ((defaultTable k)[r]?).map (BitVec.ofNat 32) := by
  rw [regValue_eq_regWords, regWords_constructEffect_standard, List.getElem?_map]

/-- Settles O17: the tables by evaluation, the fresh effect unit through the registers of `constructEffect`. -/
theorem constructGivesDefaultTable : Obligations.ConstructGivesDefaultTable := by
  refine ⟨standardConfig_arguments, kneeTable_checks, logTable_checks, ?_⟩
  intro s i k hi hc
  obtain ⟨t, ht, hu⟩ := exec_construct_holds k hi
  rw [hc] at hu
  refine ⟨t, _, ht, hu, standardConfig_id, rfl, constructEffect_kind _ k, regValue_constructEffect_standard k, ?_⟩
  intro d hd n
  rw [constructEffect_eq_delay hd, delayNew_mem, Memory.read_zero]

end Sys2Proof.Machine
end

section
/-! PROOFS. The statements of the state family (10_state.md): reset (R41, R270, R271), the host's index (R22), what
`CONSTRUCT` leaves in a slot (R42), the invariant of R40, and what only certain commands touch: the kind of a slot
(R24), the stereo link and the draws (R34, R35), the identifiers (R23). -/

namespace Sys2Proof.Machine

open Sys2Proof.Spec

/-! ## Reset -/

/-- Settles O1: each field of `resetWith` is written out, and `reset` is `resetWith` of the default arguments. -/
theorem resetLeavesUnitEmpty : Obligations.ResetLeavesUnitEmpty := by
  refine ⟨rfl, ?_⟩
  rintro s (rfl | ⟨c, n, rfl⟩) <;> exact ⟨fun _ => List.eq_of_mem_replicate, rfl, rfl, rfl, rfl⟩

/-- A bank of 1 to 16 empty slots under legal arguments meets the invariant. -/
theorem inv_of_empty {s : State} (hc : ConfigOk s.config) (h1 : 1 ≤ s.nslot) (h16 : s.nslot ≤ 16)
    (he : ∀ slot ∈ s.slots, slot = none) : Inv s :=
  ⟨hc, h1, h16, fun slot hm => by rw [he slot hm]; rfl⟩

theorem inv_resetWith {c : Config} {n : Nat} (hc : ConfigOk c) (h1 : 1 ≤ n) (h16 : n ≤ 16) :
    Inv (State.resetWith c n) := by
  have hn : (State.resetWith c n).nslot = n := List.length_replicate
  exact inv_of_empty hc (hn.symm ▸ h1) (hn.symm ▸ h16) fun _ => List.eq_of_mem_replicate

theorem inv_reset : Inv State.reset := inv_resetWith standardConfig_ok (by decide) (by decide)

theorem inv_assertReset {s : State} (h : Inv s) : Inv s.assertReset := by
  obtain ⟨hc, h1, h16, -⟩ := h
  exact inv_of_empty hc (s.assertReset_nslot.symm ▸ h1) (s.assertReset_nslot.symm ▸ h16)
    fun _ => List.eq_of_mem_replicate

/-- Settles O2: reset and the reset input both leave a bank of empty slots. -/
theorem resetMeetsInvariant : Obligations.ResetMeetsInvariant :=
  ⟨inv_reset, fun _ _ => inv_resetWith, fun _ => ⟨rfl, inv_assertReset⟩⟩

/-! ## The invariant -/

/-- What a slot of a state in range holds is in range, by the name of its content. -/
theorem effectOk_of_holds {s : State} (h : Inv s) {i : Nat} {u : EffectUnit} {e : Effect} (hu : Holds s i u)
    (he : u.effect = e) : effectOk s.config e = true := he ▸ effectOk_of_inv h hu

/-- Writing one slot with an effect unit in range keeps the invariant. -/
theorem inv_of_setUnit {s t : State} {i : Nat} {w : EffectUnit} (h : Inv s) (hc : t.config = s.config)
    (ht : t.slots = s.slots.set i (some w)) (hw : effectOk s.config w.effect = true) : Inv t :=
  inv_of_set h i (some w) hw hc ht

/-- Every completed command keeps the invariant: one that writes a slot writes a content in range, and the others leave
the slots alone. -/
theorem Ran.inv {s t : State} {i : Instr} {v : Word} (h : Ran s i t v) (hs : Inv s) : Inv t := by
  cases h with
  | construct j k => exact inv_of_setUnit hs rfl rfl (constructEffect_ok _ hs.1 k)
  | destroy j => exact inv_of_set hs j none rfl rfl rfl
  | dup j k u hu => exact inv_of_setUnit hs rfl rfl (effectOk_of_inv hs hu)
  | setActive j b u hu => exact inv_of_setUnit hs rfl rfl (effectOk_of_holds hs hu rfl)
  | setId j n u hu => exact inv_of_setUnit hs rfl rfl (effectOk_of_holds hs hu rfl)
  | setParam j r w u reg hu => exact inv_of_setUnit hs rfl rfl (writeParam_ok _ _ reg w (effectOk_of_inv hs hu))
  | tremolo j x u tr hu _ he =>
    have hok : TremoloOk tr := of_decide_eq_true (effectOk_of_holds hs hu he)
    exact inv_of_setUnit hs rfl rfl (decide_eq_true (tremoloAdvance_ok tr hok))
  | delay j x u d d' y hu _ he hy =>
    have hok : DelayOk s.config d := of_decide_eq_true (effectOk_of_holds hs hu he)
    obtain ⟨y', e, hstep, hok', -⟩ := delayStep_ok s.config s.config.rounding d x hok
    cases hy.symm.trans hstep
    exact inv_of_setUnit hs rfl rfl (decide_eq_true hok')
  | compSk j x u r tg hu _ he ht =>
    have hok : CompOk s.config 0 100 r := of_decide_eq_true (effectOk_of_holds hs hu he)
    obtain ⟨-, hknee, -⟩ := hs.1
    obtain ⟨tg', ht', hle⟩ := kneeTarget_ok s.config r (level x) hknee
    cases ht.symm.trans ht'
    exact inv_of_setUnit hs rfl rfl (decide_eq_true (compAdvance_ok _ _ _ _ r hok hle))
  | compLog j x u r tg hu _ he ht =>
    have hok : CompOk s.config 1 99 r := of_decide_eq_true (effectOk_of_holds hs hu he)
    obtain ⟨-, -, -, -, -, -, hlog, -⟩ := hs.1
    obtain ⟨tg', ht', hle⟩ := logTarget_ok s.config r (level x) hlog hok.1 hok.2.1
    cases ht.symm.trans ht'
    exact inv_of_setUnit hs rfl rfl (decide_eq_true (compAdvance_ok _ _ _ _ r hok hle))
  | _ => exact inv_of_same hs rfl rfl

theorem inv_respond {s : State} (h : Inv s) (st : Status) (v : Word) : Inv (s.respond st v) := inv_of_same h rfl rfl

theorem inv_exec {i : Instr} {s t : State} (hs : Inv s) (h : exec i s = .next t) : Inv t := by
  rcases exec_next_cases i s t h with ⟨st, -, rfl⟩ | ⟨r, v, hr, rfl⟩
  · exact inv_respond hs _ _
  · exact inv_respond (hr.inv hs) _ _

/-- Settles O59: a step idles, answers an illegal word, or runs a command, and each of the three keeps the invariant. -/
theorem everyStepKeepsInvariant : Obligations.EveryStepKeepsInvariant := by
  refine ⟨inv_reset, fun s t hs h => ?_⟩
  rcases step_cases s with ⟨-, e⟩ | ⟨r, er, -, -, e⟩ | ⟨r, i, -, -, e⟩ <;> rw [e] at h
  · cases h; exact hs
  · cases h; exact inv_respond hs _ _
  · exact inv_exec hs h

/-! ## The host side of the port -/

/-- A completed command leaves the arguments and the host side to its response. -/
theorem Ran.host {s t : State} {i : Instr} {v : Word} (h : Ran s i t v) :
    t.config = s.config ∧ t.program = s.program ∧ t.hostIndex = s.hostIndex ∧ t.responses = s.responses := by
  cases h <;> exact ⟨rfl, rfl, rfl, rfl⟩

/-- `Answered s t`: between `s` and `t` the host got one response, and its list and the arguments are as they were. -/
def Answered (s t : State) : Prop :=
  t.hostIndex = s.hostIndex + 1 ∧ t.program = s.program ∧ t.config = s.config ∧
  ∃ resp, t.responses = s.responses ++ [resp]

theorem answered_respond (s : State) (st : Status) (v : Word) : Answered s (s.respond st v) :=
  ⟨rfl, rfl, rfl, _, rfl⟩

theorem answered_exec {i : Instr} {s t : State} (h : exec i s = .next t) : Answered s t := by
  rcases exec_next_cases i s t h with ⟨st, -, rfl⟩ | ⟨r, v, hr, rfl⟩
  · exact answered_respond s st 0
  · obtain ⟨hc, hp, hi, hresp⟩ := hr.host
    refine ⟨?_, hp, hc, ⟨.ok, v⟩, ?_⟩
    · rw [State.respond_hostIndex, hi]
    · rw [State.respond_responses, hresp]

/-- Settles O9: without a request the step idles; with one, both the rejected word and the command end in a response. -/
theorem hostIndexCountsResponses : Obligations.HostIndexCountsResponses := by
  refine ⟨fun s hn => ?_, fun s t r hr h => ?_⟩
  · rcases step_cases s with ⟨-, e⟩ | ⟨r, er, hr, -⟩ | ⟨r, i, hr, -⟩
    · exact e
    · cases hn.symm.trans hr
    · cases hn.symm.trans hr
  · rcases step_cases s with ⟨hn, -⟩ | ⟨r', er, -, -, e⟩ | ⟨r', i, -, -, e⟩
    · cases hn.symm.trans hr
    · rw [e] at h; cases h; exact answered_respond s _ _
    · exact answered_exec (e ▸ h)

/-! ## What `CONSTRUCT` leaves -/

theorem constructEffect_eq_freshEffect (c : Config) (k : Kind) : constructEffect c k = freshEffect c k := by
  cases k <;> rfl

theorem constructEvents_eq_newEvents (i : Nat) (k : Kind) : constructEvents i k = newEvents i k := by
  cases k <;> rfl

/-- Settles O16: `CONSTRUCT` on an existing slot completes, and the machine's tables are those of the spec. -/
theorem constructInstallsFreshInstance : Obligations.ConstructInstallsFreshInstance := by
  intro s i k hi
  rw [exec_construct_of_lt k hi, respond_ok, constructUnit, constructEffect_eq_freshEffect,
    constructEvents_eq_newEvents]
  rfl

/-! ## The kind of a slot -/

theorem writeParam_kind (c : Config) (e : Effect) (reg : Reg) (v : Word) : (writeParam c e reg v).kind = e.kind := by
  cases e <;> rfl

/-- Slot `k` holds an effect unit of the kind `κ`. -/
def HoldsKind (s : State) (k : Nat) (κ : Kind) : Prop := ∃ u, Holds s k u ∧ u.effect.kind = κ

/-- Replacing an effect unit by one of its kind changes the kind of no slot. -/
theorem holdsKind_of_set {s t : State} {j k : Nat} {u w : EffectUnit} {κ : Kind} (hu : Holds s j u)
    (ht : t.slots = s.slots.set j (some w)) (hw : w.effect.kind = u.effect.kind) (h : HoldsKind s k κ) :
    HoldsKind t k κ := by
  obtain ⟨u', hu', hκ⟩ := h
  by_cases hjk : j = k
  · subst hjk
    cases hu.symm.trans hu'
    obtain ⟨hlt, -⟩ := List.getElem?_eq_some_iff.mp hu
    exact ⟨w, by rw [Holds, ht, List.getElem?_set_self hlt], hw.trans hκ⟩
  · exact ⟨u', by rw [Holds, ht, List.getElem?_set_ne hjk]; exact hu', hκ⟩

/-- A completed command that does not replace slot `k` leaves its kind. -/
theorem Ran.holdsKind {s t : State} {i : Instr} {v : Word} {k : Nat} {κ : Kind} (h : Ran s i t v)
    (hr : replaces i k = false) (hk : HoldsKind s k κ) : HoldsKind t k κ := by
  have other : ∀ {j : Nat} {slot : Slot}, (j == k) = false → HoldsKind (s.setSlot j slot) k κ := by
    intro j slot hjk
    obtain ⟨u, hu, hκ⟩ := hk
    exact ⟨u, (setSlot_get_other s j k slot (Ne.symm (ne_of_beq_false hjk))).trans hu, hκ⟩
  cases h with
  | construct j κ' => exact other hr
  | destroy j => exact other hr
  | dup i j u => exact other hr
  | setActive j b u hu => exact holdsKind_of_set hu rfl rfl hk
  | setId j n u hu => exact holdsKind_of_set hu rfl rfl hk
  | setParam j r w u reg hu => exact holdsKind_of_set hu rfl (writeParam_kind _ _ _ _) hk
  | tremolo j x u tr hu _ he => exact holdsKind_of_set hu rfl (he ▸ rfl) hk
  | delay j x u d d' y hu _ he => exact holdsKind_of_set hu rfl (he ▸ rfl) hk
  | compSk j x u r tg hu _ he => exact holdsKind_of_set hu rfl (he ▸ rfl) hk
  | compLog j x u r tg hu _ he => exact holdsKind_of_set hu rfl (he ▸ rfl) hk
  | _ => exact hk

/-- Settles O55: a failed command writes no slot, and a completed one that is no replacement keeps the kind. -/
theorem kindChangesOnlyByReplacement : Obligations.KindChangesOnlyByReplacement := by
  intro i s t k u h hr hu
  have hk : HoldsKind s k u.effect.kind := ⟨u, hu, rfl⟩
  rcases exec_next_cases i s t h with ⟨st, -, rfl⟩ | ⟨r, v, hran, rfl⟩
  · exact hk
  · exact hran.holdsKind hr hk

/-! ## The stereo link and the draws -/

/-- The command is `PROCESS` on a slot that holds an active effect unit whose kind is `k₁` or `k₂`. -/
def ProcessesActive (s : State) (i : Instr) (k₁ k₂ : Kind) : Prop :=
  ∃ (k : Nat) (x : Sample) (u : EffectUnit), i = .process k x ∧ Holds s k u ∧ u.active = true ∧
    (u.effect.kind = k₁ ∨ u.effect.kind = k₂)

/-- What a completed command does to `engaged` and the pair: nothing, unless it is `LINKWR` or a compressor's sample. -/
theorem Ran.link_cases {s t : State} {i : Instr} {v : Word} (h : Ran s i t v) :
    (t.engaged = s.engaged ∧ ((t.pair0 = s.pair0 ∧ t.pair1 = s.pair1) ∨ ∃ a b, i = .linkWr a b)) ∨
    ProcessesActive s i .compSk .compLog := by
  cases h with
  | linkWr a b => exact .inl ⟨rfl, .inr ⟨a, b, rfl⟩⟩
  | compSk j x u r tg hu ha he => exact .inr ⟨j, x, u, rfl, hu, ha, .inl (he ▸ rfl)⟩
  | compLog j x u r tg hu ha he => exact .inr ⟨j, x, u, rfl, hu, ha, .inr (he ▸ rfl)⟩
  | _ => exact .inl ⟨rfl, .inl ⟨rfl, rfl⟩⟩

/-- A completed command draws nothing, unless it is a wrapper's sample, which draws once. -/
theorem Ran.draws_cases {s t : State} {i : Instr} {v : Word} (h : Ran s i t v) :
    t.draws = s.draws ∨ (t.draws = s.draws + 1 ∧ ProcessesActive s i .adsrGain .pitchShift) := by
  cases h with
  | adsr j x u b hu ha he => exact .inr ⟨rfl, j, x, u, rfl, hu, ha, .inl (he ▸ rfl)⟩
  | pitch j x u w hu ha he => exact .inr ⟨rfl, j, x, u, rfl, hu, ha, .inr (he ▸ rfl)⟩
  | _ => exact .inl rfl

/-- Settles O56: a failed command writes neither; of the completed ones, the cases above leave only those named. -/
theorem linkAndDrawsOnlyByTheirEffects : Obligations.LinkAndDrawsOnlyByTheirEffects := by
  intro i s t h
  rcases exec_next_cases i s t h with ⟨st, -, rfl⟩ | ⟨r, v, hr, rfl⟩
  · exact ⟨fun hne => by simp at hne, fun hne => by simp at hne⟩
  · refine ⟨fun hne => ?_, fun hne => hr.draws_cases.resolve_left hne⟩
    rcases hr.link_cases with ⟨he, hp | ⟨a, b, hi⟩⟩ | hproc
    · simp [he, hp] at hne
    · simp [he, hi] at hne
    · exact hproc

/-! ## The identifiers

Erasing the identifiers commutes with every operation over the state, and no command but `GETID` puts one in its
answer. -/

def eraseConfig (c : Config) : Config := { c with defaults := { c.defaults with id := 0 } }

def eraseUnit (u : EffectUnit) : EffectUnit := { u with id := 0 }

@[simp] theorem eraseUnit_active (u : EffectUnit) : (eraseUnit u).active = u.active := rfl

@[simp] theorem eraseUnit_effect (u : EffectUnit) : (eraseUnit u).effect = u.effect := rfl

@[simp] theorem eraseUnit_eraseUnit (u : EffectUnit) : eraseUnit (eraseUnit u) = eraseUnit u := rfl

@[simp] theorem eraseIds_config (s : State) : (eraseIds s).config = eraseConfig s.config := rfl

@[simp] theorem eraseIds_slots (s : State) : (eraseIds s).slots = s.slots.map (Option.map eraseUnit) := rfl

@[simp] theorem eraseIds_nslot (s : State) : (eraseIds s).nslot = s.nslot := List.length_map _

@[simp] theorem eraseIds_eraseIds (s : State) : eraseIds (eraseIds s) = eraseIds s := by
  simp [eraseIds, Function.comp_def]

@[simp] theorem eraseIds_respond (s : State) (st : Status) (v : Word) :
    eraseIds (s.respond st v) = (eraseIds s).respond st v := rfl

@[simp] theorem eraseIds_emit (s : State) (evs : List Event) : eraseIds (s.emit evs) = (eraseIds s).emit evs := rfl

@[simp] theorem eraseIds_draw (s : State) (ev : Event) : eraseIds (s.draw ev) = (eraseIds s).draw ev := rfl

@[simp] theorem eraseIds_linkScale (s : State) (g : Nat) : eraseIds (s.linkScale g) = (eraseIds s).linkScale g := rfl

@[simp] theorem eraseIds_setSlot (s : State) (i : Nat) (v : Slot) :
    eraseIds (s.setSlot i v) = (eraseIds s).setSlot i (v.map eraseUnit) :=
  congrArg (fun l => { eraseIds s with slots := l }) List.map_set

@[simp] theorem eraseIds_setEffect (s : State) (i : Nat) (u : EffectUnit) (e : Effect) :
    eraseIds (s.setEffect i u e) = (eraseIds s).setEffect i (eraseUnit u) e := eraseIds_setSlot s i _

@[simp] theorem eraseIds_nextTick (s : State) : (eraseIds s).nextTick = s.nextTick := rfl

@[simp] theorem eraseIds_nextRead (s : State) : (eraseIds s).nextRead = s.nextRead := rfl

/-! The definitions over the arguments do not read the default identifier, except for the one that installs it. -/

theorem constructUnit_eraseConfig (c : Config) (k : Kind) :
    eraseUnit (constructUnit (eraseConfig c) k) = eraseUnit (constructUnit c k) := by
  cases k <;> rfl

@[simp] theorem writeParam_eraseConfig (c : Config) (e : Effect) (reg : Reg) (v : Word) :
    writeParam (eraseConfig c) e reg v = writeParam c e reg v := by
  cases e <;> rfl

@[simp] theorem nextGain_eraseConfig (c : Config) (r : CompRegs) (tg : Nat) :
    nextGain (eraseConfig c) r tg = nextGain c r tg := rfl

@[simp] theorem compAdvance_eraseConfig (c : Config) (r : CompRegs) (tg : Nat) :
    compAdvance (eraseConfig c) r tg = compAdvance c r tg := rfl

/-! A check passes on the agreement of the erased outcomes of what follows it, and an answer gives it. -/

theorem eraseOutcome_raise (s : State) (st : Status) :
    eraseOutcome ((eraseIds s).raise st) = eraseOutcome (s.raise st) := by
  simp [eraseOutcome]

/-- The answer `OK` of two states that are alike but for the identifiers. -/
theorem eraseOutcome_finish {s t : State} (h : eraseIds t = eraseIds s) (v : Word) :
    eraseOutcome (t.finish v) = eraseOutcome (s.finish v) := by
  simp [eraseOutcome, h]

/-- Check 2 of R110 does not look at the identifiers. -/
theorem eraseOutcome_checkSlot (s : State) (i : Nat) {run' run : Result} (h : eraseOutcome run' = eraseOutcome run) :
    eraseOutcome ((eraseIds s).checkSlot i run') = eraseOutcome (s.checkSlot i run) := by
  by_cases hi : i < s.nslot
  · rw [checkSlot_of_lt s i run hi, checkSlot_of_lt _ i run' (by simpa using hi), h]
  · simp [State.checkSlot, hi, eraseOutcome]

/-- Checks 2 and 3 of R110 do not look at the identifiers. -/
theorem eraseOutcome_withUnit (s : State) (i : Nat) {run' run : EffectUnit → Result}
    (h : ∀ u, eraseOutcome (run' (eraseUnit u)) = eraseOutcome (run u)) :
    eraseOutcome ((eraseIds s).withUnit i run') = eraseOutcome (s.withUnit i run) := by
  rcases hs : s.slots[i]? with _ | (_ | u)
  · simp [State.withUnit, hs, eraseOutcome]
  · simp [State.withUnit, hs, eraseOutcome]
  · simpa [State.withUnit, hs] using h u

/-- A Delay's sample does not look at the identifiers. -/
theorem eraseOutcome_processDelay (i : Nat) (u : EffectUnit) (d : DelayRegs) (x : Sample) (s : State) :
    eraseOutcome (processDelay i (eraseUnit u) d x (eraseIds s)) = eraseOutcome (processDelay i u d x s) := by
  have hround : (eraseIds s).config.rounding = s.config.rounding := rfl
  unfold processDelay
  rw [hround]
  rcases delayStep s.config.rounding d x with _ | ⟨y, d'⟩
  · rfl
  · exact eraseOutcome_finish (by simp) _

/-- A compressor's sample does not look at the identifiers. -/
theorem eraseOutcome_processComp (wrap : CompRegs → Effect) (i : Nat) (u : EffectUnit) (r : CompRegs)
    (target : Option Nat) (x : Sample) (s : State) :
    eraseOutcome (processComp wrap i (eraseUnit u) r target x (eraseIds s)) =
      eraseOutcome (processComp wrap i u r target x s) := by
  cases target with
  | none => rfl
  | some tg => exact eraseOutcome_finish (by simp) _

/-- `PROCESS` on an active slot does not look at the identifiers; the samples and the curves read the arguments only in
fields the erasure leaves. -/
theorem eraseOutcome_processActive (i : Nat) (u : EffectUnit) (x : Sample) (s : State) :
    eraseOutcome (processActive i (eraseUnit u) x (eraseIds s)) = eraseOutcome (processActive i u x s) := by
  obtain ⟨id, active, e⟩ := u
  cases e with
  | boost v => exact eraseOutcome_finish (eraseIds_eraseIds s) _
  | distortion r => exact eraseOutcome_finish (eraseIds_eraseIds s) _
  | fuzz r => exact eraseOutcome_finish (eraseIds_eraseIds s) _
  | tremolo t => exact eraseOutcome_finish (by simp) _
  | delay d => exact eraseOutcome_processDelay i _ d x s
  | adsrGain b => exact eraseOutcome_finish (by simp) _
  | pitchShift w => exact eraseOutcome_finish (by simp) _
  | compSk r => exact eraseOutcome_processComp .compSk i _ r (kneeTarget s.config r (level x)) x s
  | compLog r => exact eraseOutcome_processComp .compLog i _ r (logTarget s.config r (level x)) x s

/-- `SETPARAM` does not look at the identifiers. -/
theorem eraseOutcome_execSetParam (i r : Nat) (v : Word) (s : State) :
    eraseOutcome (execSetParam i r v (eraseIds s)) = eraseOutcome (execSetParam i r v s) := by
  refine eraseOutcome_withUnit s i fun u => ?_
  simp only [eraseUnit_effect]
  rcases (regMap u.effect.kind)[r]? with _ | ⟨reg, _ | _⟩
  · exact eraseOutcome_raise s _
  · exact eraseOutcome_finish (by simp) _
  · exact eraseOutcome_raise s _

/-- Settles O58: the checks, the writes and the answers of every command but `GETID` commute with the erasure. -/
theorem idsHaveNoEffect : Obligations.IdsHaveNoEffect := by
  intro i s hget
  have same : eraseIds (eraseIds s) = eraseIds s := eraseIds_eraseIds s
  cases i with
  | nop => exact eraseOutcome_finish same _
  | construct j k => exact eraseOutcome_checkSlot s j (eraseOutcome_finish (by simp [constructUnit_eraseConfig]) _)
  | destroy j => exact eraseOutcome_checkSlot s j (eraseOutcome_finish (by simp) _)
  | dup j k =>
    refine eraseOutcome_checkSlot s k (eraseOutcome_withUnit s j fun u => ?_)
    split
    · exact eraseOutcome_finish same _
    · exact eraseOutcome_finish (by simp) _
  | setActive j b => exact eraseOutcome_withUnit s j fun u => eraseOutcome_finish (by simp [eraseUnit]) _
  | getActive j => exact eraseOutcome_withUnit s j fun u => eraseOutcome_finish same _
  | setId j n => exact eraseOutcome_withUnit s j fun u => eraseOutcome_finish (by simp [eraseUnit]) _
  | getId j => exact absurd rfl (hget j)
  | setParam j r v => exact eraseOutcome_execSetParam j r v s
  | getParam j r =>
    refine eraseOutcome_withUnit s j fun u => ?_
    rw [eraseUnit_effect]
    rcases u.effect.regWords[r]? with _ | w
    · exact eraseOutcome_raise s _
    · exact eraseOutcome_finish same _
  | process j x =>
    refine eraseOutcome_withUnit s j fun u => ?_
    rw [eraseUnit_active]
    split
    · exact eraseOutcome_processActive j u x s
    · exact eraseOutcome_finish same _
  | bufRd j k =>
    refine eraseOutcome_withUnit s j fun u => ?_
    rw [eraseUnit_effect]
    rcases bufElement k.toNat u.effect with _ | z
    · exact eraseOutcome_raise s _
    · exact eraseOutcome_finish same _
  | linkWr a b => exact eraseOutcome_finish (congrArg (fun t : State => { t with pair0 := a, pair1 := b }) same) _
  | linkRd => exact eraseOutcome_finish same _
  | getStatus => exact eraseOutcome_finish same _

end Sys2Proof.Machine
end

section
/-! PROOFS. The statements of the memory family (20_memory.md): the reading commands change no state (R65), a command
leaves every slot it does not write (R74), and a write is visible to the next command (R72). -/

namespace Sys2Proof.Machine

open Sys2Proof.Spec

/-! ## The answers in the spec's terms -/

theorem respond_ok_eq_answeredOk (s : State) (v : Word) : s.respond .ok v = answeredOk s v := respond_ok s v

theorem respond_eq_answeredErr (s : State) {st : Status} (h : st ≠ .ok) : s.respond st 0 = answeredErr s st := by
  simp [State.respond, stickyErr, answeredErr, h]

/-! ## The reading commands -/

/-- A reading command that completes leaves the state to its response. -/
theorem Ran.eq_of_isRead {s t : State} {i : Instr} {v : Word} (h : Ran s i t v) (hi : isRead i = true) : t = s := by
  cases h with
  | getActive | getId | getParam | bufRd | linkRd | getStatus => rfl
  | _ => cases hi

/-- Settles O57: a failed check answers an error, a run changes nothing, and a fault is an answer of `PROCESS` only. -/
theorem readsChangeNothing : Obligations.ReadsChangeNothing := by
  intro i s hi
  have ha := exec_answers i s
  generalize exec i s = result at ha
  cases ha with
  | failed st hst => exact ⟨st, 0, by rw [if_neg hst, respond_eq_answeredErr s hst]⟩
  | ran t v hr => exact ⟨.ok, v, by rw [if_pos rfl, hr.eq_of_isRead hi, respond_ok_eq_answeredOk]⟩
  | delayFault k x u d hp | kneeFault k x u d hp | logFault k x u d hp => subst hp; cases hi

/-! ## The slots a command does not write -/

/-- A completed command writes no slot, or one that it names as written. -/
theorem Ran.slots_cases {s t : State} {i : Instr} {v : Word} (h : Ran s i t v) :
    t.slots = s.slots ∨ ∃ j ∈ writtenSlots i, ∃ slot, t.slots = s.slots.set j slot := by
  cases h with
  | construct | destroy | dup | setActive | setId | setParam | tremolo | delay | compSk | compLog =>
    exact .inr ⟨_, List.mem_singleton_self _, _, rfl⟩
  | _ => exact .inl rfl

/-- Settles O54: a failed command writes no slot, and a write of one slot keeps the number of slots and every other
slot. -/
theorem otherSlotsReadAsBefore : Obligations.OtherSlotsReadAsBefore := by
  intro i s t h
  rcases exec_next_cases i s t h with ⟨st, -, rfl⟩ | ⟨r, v, hr, rfl⟩
  · exact ⟨rfl, fun _ _ => rfl⟩
  · rw [State.respond_slots]
    rcases hr.slots_cases with hs | ⟨j, hj, slot, hs⟩
    · rw [hs]
      exact ⟨rfl, fun _ _ => rfl⟩
    · rw [hs]
      exact ⟨List.length_set, fun k hk => List.getElem?_set_ne (ne_of_mem_of_not_mem hj hk)⟩

/-! ## The writable registers -/

/-- The `RW` registers come first in every register map. -/
theorem exists_rw_of_lt_writableCount {k : Kind} {r : Nat} (h : r < writableCount k) :
    ∃ reg, (regMap k)[r]? = some (reg, .rw) := by
  have haccess : ∀ r < writableCount k, ((regMap k)[r]?).map Prod.snd = some .rw := by cases k <;> decide
  obtain ⟨⟨reg, access⟩, hreg, rfl⟩ := Option.map_eq_some_iff.mp (haccess r h)
  exact ⟨reg, hreg⟩

theorem wmin_eq_ofNat (w hi : Word) : wmin w hi = BitVec.ofNat 32 (min w.toNat hi.toNat) := by
  unfold wmin
  split
  · rw [min_eq_left ‹_›, BitVec.ofNat_toNat, BitVec.setWidth_eq]
  · rw [min_eq_right (by omega), BitVec.ofNat_toNat, BitVec.setWidth_eq]

theorem wclampBetween_eq_ofNat (lo w hi : Word) :
    wclampBetween lo w hi = BitVec.ofNat 32 (min (max w.toNat lo.toNat) hi.toNat) := by
  have hmax : (if w.toNat < lo.toNat then lo else w).toNat = max w.toNat lo.toNat := by split <;> omega
  rw [wclampBetween, wmin_eq_ofNat, hmax]

/-- The write clamp by register name is the one by register index (R120). -/
theorem wclamp_eq_clampedWord {k : Kind} {r : Nat} {reg : Reg} (v : Word)
    (h : (regMap k)[r]? = some (reg, .rw)) : wclamp k reg v = clampedWord k r v := by
  have unclamped : v = BitVec.ofNat 32 v.toNat := by simp
  cases k with
  | boost | adsrGain | pitchShift => rcases r with _ | r <;> cases h; exact unclamped
  | distortion => rcases r with _ | _ | r <;> cases h <;> exact wmin_eq_ofNat v 32767
  | fuzz =>
    rcases r with _ | _ | r <;> cases h
    · exact unclamped
    · exact wmin_eq_ofNat v 32767
  | tremolo =>
    rcases r with _ | _ | _ | _ | _ | _ | r <;> cases h
    · exact unclamped
    · exact wmin_eq_ofNat v 100
    · exact unclamped
  | delay =>
    rcases r with _ | _ | _ | _ | _ | _ | r <;> cases h
    · exact unclamped
    · exact wmin_eq_ofNat v 0x10000
    · exact wmin_eq_ofNat v 0x10000
    · exact unclamped
  | compSk =>
    rcases r with _ | _ | _ | _ | _ | _ | _ | r <;> cases h
    · exact unclamped
    · exact unclamped
    · exact unclamped
    · exact wmin_eq_ofNat v 100
    · exact unclamped
  | compLog =>
    rcases r with _ | _ | _ | _ | _ | _ | _ | r <;> cases h
    · exact unclamped
    · exact unclamped
    · exact unclamped
    · exact wclampBetween_eq_ofNat 1 v 99
    · exact unclamped

/-! ## A write and the registers after it -/

@[simp] theorem put_kind (e : Effect) (reg : Reg) (w : Word) : (e.put reg w).kind = e.kind := by
  cases e <;> rfl

theorem regWords_put {e : Effect} {r : Nat} {reg : Reg} (w : Word) (h : (regMap e.kind)[r]? = some (reg, .rw)) :
    (e.put reg w).regWords[r]? = some w := by
  cases e with
  | boost | adsrGain | pitchShift => rcases r with _ | r <;> cases h; rfl
  | distortion | fuzz => rcases r with _ | _ | r <;> cases h <;> rfl
  | tremolo | delay => rcases r with _ | _ | _ | _ | _ | _ | r <;> cases h <;> rfl
  | compSk | compLog => rcases r with _ | _ | _ | _ | _ | _ | _ | r <;> cases h <;> rfl

theorem tremoloLower_eq_counter (t : TremoloRegs) : ∃ n, tremoloLower t = { t with counter := n } := by
  unfold tremoloLower
  split <;> exact ⟨_, rfl⟩

theorem delayResize_eq_line (c : Config) (d : DelayRegs) :
    ∃ m n p, delayResize c d = { d with mem := m, cursor := n, len := p } := by
  unfold delayResize
  split <;> exact ⟨_, _, _, rfl⟩

/-- The lowering of the counter leaves the `RW` registers of a Tremolo. -/
theorem regWords_tremoloLower (t : TremoloRegs) {r : Nat} (h : r < 3) :
    (Effect.tremolo (tremoloLower t)).regWords[r]? = (Effect.tremolo t).regWords[r]? := by
  obtain ⟨n, hn⟩ := tremoloLower_eq_counter t
  rw [hn]
  interval_cases r <;> rfl

/-- The resize leaves the `RW` registers of a Delay. -/
theorem regWords_delayResize (c : Config) (d : DelayRegs) {r : Nat} (h : r < 4) :
    (Effect.delay (delayResize c d)).regWords[r]? = (Effect.delay d).regWords[r]? := by
  obtain ⟨m, n, p, hd⟩ := delayResize_eq_line c d
  rw [hd]
  interval_cases r <;> rfl

/-- The side effect of a write touches read-only registers alone (R121). -/
theorem regWords_afterWrite (c : Config) (reg : Reg) {e : Effect} {r : Nat} (h : r < writableCount e.kind) :
    (afterWrite c reg e).regWords[r]? = e.regWords[r]? := by
  cases e with
  | tremolo t =>
    rw [afterWrite]
    split
    · exact regWords_tremoloLower t h
    · rfl
  | delay d =>
    rw [afterWrite]
    split
    · exact regWords_delayResize c d h
    · rfl
  | _ => rfl

/-- After `SETPARAM` the register reads as the clamped operand. -/
theorem regWords_writeParam (c : Config) {e : Effect} {r : Nat} {reg : Reg} (v : Word)
    (hr : r < writableCount e.kind) (hreg : (regMap e.kind)[r]? = some (reg, .rw)) :
    (writeParam c e reg v).regWords[r]? = some (clampedWord e.kind r v) := by
  rw [writeParam, regWords_afterWrite c reg (by rwa [put_kind]), regWords_put _ hreg, wclamp_eq_clampedWord v hreg]

/-! ## The setter and the getter -/

theorem exec_setParam_of_rw {s : State} {i r : Nat} {u : EffectUnit} {reg : Reg} (v : Word) (hu : Holds s i u)
    (hreg : (regMap u.effect.kind)[r]? = some (reg, .rw)) :
    exec (.setParam i r v) s = .next (((s.setEffect i u (writeParam s.config u.effect reg v)).emit
      (writeEvents i (writeParam s.config u.effect reg v))).respond .ok 0) := by
  rw [exec, execSetParam, withUnit_of_some s i u _ hu, hreg]
  rfl

/-- After `SETPARAM` of a `RW` register the slot holds the written effect. -/
theorem exec_setParam_holds {s : State} {i r : Nat} {u : EffectUnit} {reg : Reg} (v : Word) (hu : Holds s i u)
    (hreg : (regMap u.effect.kind)[r]? = some (reg, .rw)) :
    ∃ t, exec (.setParam i r v) s = .next t ∧
      Holds t i { u with effect := writeParam s.config u.effect reg v } := by
  obtain ⟨hlt, -⟩ := List.getElem?_eq_some_iff.mp hu
  exact ⟨_, exec_setParam_of_rw v hu hreg, setSlot_get_same s i _ hlt⟩

theorem exec_getParam_of_regWords {s : State} {i r : Nat} {u : EffectUnit} {w : Word} (hu : Holds s i u)
    (hw : u.effect.regWords[r]? = some w) : exec (.getParam i r) s = .next (answeredOk s w) := by
  rw [exec, execGetParam, withUnit_of_some s i u _ hu, hw, ← respond_ok_eq_answeredOk]
  rfl

/-- Settles O27: the setter leaves the clamped operand in the register, and the getter answers the register. -/
theorem getterReturnsClampedSetting : Obligations.GetterReturnsClampedSetting := by
  intro s i r v u hu hr
  obtain ⟨reg, hreg⟩ := exists_rw_of_lt_writableCount hr
  obtain ⟨t, ht, hut⟩ := exec_setParam_holds v hu hreg
  exact ⟨t, ht, exec_getParam_of_regWords hut (regWords_writeParam s.config v hr hreg)⟩

end Sys2Proof.Machine
end

section
/-! PROOFS. The statements of the encoding family (30_encoding.md). Three lemmas carry them: the decoder reads back the
command word of every well-formed instruction (R82, R92), what it accepts has the fields of a row of the opcode map
(R83, R88), and every such word is the command word of an instruction. After them the two checks that come before every
other, the illegal word (R88) and the missing slot (R110). -/

namespace Sys2Proof

open Sys2Proof.Machine Sys2Proof.Spec

/-! ## The operand fields -/

theorem regFits_toNat (b : BitVec 8) : regFits b.toNat = true := by
  simpa [regFits] using b.isLt

theorem exists_slotBits (b : BitVec 4) : ∃ n, slotFits n = true ∧ slotBits n = b :=
  ⟨_, slotFits_toNat b, slotBits_of_toNat b⟩

theorem exists_flagImm {imm : BitVec 16} (h : imm.extractLsb' 1 15 = 0) : ∃ b, flagImm b = imm :=
  ⟨_, flagImm_of_low imm h⟩

theorem exists_regImm {imm : BitVec 16} (h : imm.extractLsb' 8 8 = 0) : ∃ r, regFits r = true ∧ regImm r = imm :=
  ⟨_, regFits_toNat _, regImm_of_low imm h⟩

/-- The kind codes `CONSTRUCT` accepts are 1 to 9 (R88). -/
theorem exists_kind_code_iff (a : BitVec 4) : (∃ k : Kind, k.code = a) ↔ 1 ≤ a.toNat ∧ a.toNat ≤ 9 := by
  constructor
  · rintro ⟨k, rfl⟩
    cases k <;> decide
  · intro h
    have hsome : ∀ a : BitVec 4, 1 ≤ a.toNat ∧ a.toNat ≤ 9 → (Kind.ofCode a).isSome = true := by decide
    obtain ⟨k, hk⟩ := Option.isSome_iff_exists.mp (hsome a h)
    exact ⟨k, kind_code_of_ofCode a k hk⟩

/-! ## The opcode map, by fields -/

/-- The fields of the words that select a row of the opcode map, row by row (R83). -/
def RowFields (f : Fields) : Prop :=
  f.op = 0x00 ∧ f.slot = 0 ∧ f.aux = 0 ∧ f.imm = 0 ∨
  f.op = 0x01 ∧ f.imm = 0 ∨
  f.op = 0x02 ∧ f.aux = 0 ∧ f.imm = 0 ∨
  f.op = 0x03 ∧ f.imm = 0 ∨
  f.op = 0x04 ∧ f.aux = 0 ∧ f.imm.extractLsb' 1 15 = 0 ∨
  f.op = 0x05 ∧ f.aux = 0 ∧ f.imm = 0 ∨
  f.op = 0x06 ∧ f.aux = 0 ∧ f.imm = 0 ∨
  f.op = 0x07 ∧ f.aux = 0 ∧ f.imm = 0 ∨
  f.op = 0x08 ∧ f.aux = 0 ∧ f.imm.extractLsb' 8 8 = 0 ∨
  f.op = 0x09 ∧ f.aux = 0 ∧ f.imm.extractLsb' 8 8 = 0 ∨
  f.op = 0x0A ∧ f.aux = 0 ∨
  f.op = 0x0B ∧ f.aux = 0 ∧ f.imm = 0 ∨
  f.op = 0x0C ∧ f.slot = 0 ∧ f.aux = 0 ∧ f.imm = 0 ∨
  f.op = 0x0D ∧ f.slot = 0 ∧ f.aux = 0 ∧ f.imm = 0 ∨
  f.op = 0x0E ∧ f.slot = 0 ∧ f.aux = 0 ∧ f.imm = 0

/-- A word selects a row by its four fields. -/
theorem and_eq_iff_fields (cmd mask m : Word) :
    cmd &&& mask = m ↔
      (fieldsOf cmd).op &&& (fieldsOf mask).op = (fieldsOf m).op ∧
      (fieldsOf cmd).slot &&& (fieldsOf mask).slot = (fieldsOf m).slot ∧
      (fieldsOf cmd).aux &&& (fieldsOf mask).aux = (fieldsOf m).aux ∧
      (fieldsOf cmd).imm &&& (fieldsOf mask).imm = (fieldsOf m).imm := by
  rw [← assemble_inj, ← assemble_and, assemble_fieldsOf, assemble_fieldsOf, assemble_fieldsOf]

theorem fieldsOf_injective {cmd cmd' : Word} (h : fieldsOf cmd = fieldsOf cmd') : cmd = cmd' := by
  rw [← assemble_fieldsOf cmd, h, assemble_fieldsOf]

theorem selects_row_iff (cmd : Word) :
    (∃ row ∈ opcodeMap, cmd &&& row.mask = row.matchWord) ↔ RowFields (fieldsOf cmd) := by
  have hop (b : BitVec 8) : b &&& 255#8 = b := BitVec.and_allOnes
  have hfour (b : BitVec 4) : b &&& 15#4 = b := BitVec.and_allOnes
  have himm (b : BitVec 16) : b &&& 65535#16 = b := BitVec.and_allOnes
  have hflag (b : BitVec 16) : b &&& 65534#16 = 0#16 ↔ b.extractLsb' 1 15 = 0#15 := flagZero_iff b
  have hreg (b : BitVec 16) : b &&& 65280#16 = 0#16 ↔ b.extractLsb' 8 8 = 0#8 := regZero_iff b
  simp only [opcodeMap, List.exists_mem_cons_iff, List.not_mem_nil, false_and, exists_false, or_false,
    and_eq_iff_fields]
  generalize fieldsOf cmd = f
  simp [RowFields, fieldsOf, hop, hfour, himm, hflag, hreg]

theorem fieldsOf_op_toNat (cmd : Word) : (fieldsOf cmd).op.toNat = cmd.toNat / 2 ^ 24 := by
  have := cmd.isLt
  simp only [fieldsOf, BitVec.extractLsb'_toNat, Nat.shiftRight_eq_div_pow]
  omega

theorem fieldsOf_aux_toNat (cmd : Word) : (fieldsOf cmd).aux.toNat = cmd.toNat / 2 ^ 16 % 16 := by
  simp only [fieldsOf, BitVec.extractLsb'_toNat, Nat.shiftRight_eq_div_pow]

theorem legalCmd_iff (cmd : Word) :
    LegalCmd cmd ↔ RowFields (fieldsOf cmd) ∧ ((fieldsOf cmd).op = 0x01 → ∃ k : Kind, k.code = (fieldsOf cmd).aux) := by
  rw [LegalCmd, selects_row_iff, exists_kind_code_iff, fieldsOf_aux_toNat, ← fieldsOf_op_toNat, ← BitVec.toNat_inj]
  rfl

/-! ## The words of an instruction -/

/-- The commands with an operand in the operand word (R80, R85). -/
def readsOpd : Instr → Bool
  | .setId _ _ => true
  | .setParam _ _ _ => true
  | .bufRd _ _ => true
  | .linkWr _ _ => true
  | _ => false

theorem encodeOpd_of_not_readsOpd {i : Instr} (h : readsOpd i = false) : encodeOpd i = 0 := by
  cases i with
  | setId | setParam | bufRd | linkWr => cases h
  | _ => rfl

/-- The decoder reads back the command word of a well-formed instruction, whatever the operand word is where the command
ignores it. -/
theorem decode_encodeCmd {i : Instr} {w : Word} (h : WellFormed i = true) (hw : readsOpd i = true → encodeOpd i = w) :
    decode ⟨encodeCmd i, w⟩ = .ok i := by
  rw [decode]
  cases i <;> rw [encodeCmd, fieldsOf_assemble]
  case nop | linkRd | getStatus => rfl
  case construct n k =>
    change decodeConstruct _ = _
    rw [decodeConstruct, kind_ofCode_code]
    refine (ifZero_eq_ok _ _ _ _).mpr ⟨rfl, ?_⟩
    rw [slotBits_toNat n h]
  case destroy n | getActive n | getId n | process n x =>
    refine (ifZero_eq_ok _ _ _ _).mpr ⟨rfl, ?_⟩
    rw [slotBits_toNat n h]
  case setId n v | bufRd n v =>
    obtain rfl : v = w := hw rfl
    refine (ifZero_eq_ok _ _ _ _).mpr ⟨rfl, ?_⟩
    rw [slotBits_toNat n h]
  case dup n m =>
    obtain ⟨hn, hm⟩ := Bool.and_eq_true_iff.mp h
    refine (ifZero_eq_ok _ _ _ _).mpr ⟨rfl, ?_⟩
    rw [slotBits_toNat n hn, slotBits_toNat m hm]
  case setActive n b =>
    refine (ifZero_eq_ok _ _ _ _).mpr ⟨by rw [flagImm_high]; rfl, ?_⟩
    rw [slotBits_toNat n h, flagImm_low]
  case getParam n r =>
    obtain ⟨hn, hr⟩ := Bool.and_eq_true_iff.mp h
    refine (ifZero_eq_ok _ _ _ _).mpr ⟨by rw [regImm_high]; rfl, ?_⟩
    rw [slotBits_toNat n hn, regImm_low r hr]
  case setParam n r v =>
    obtain ⟨hn, hr⟩ := Bool.and_eq_true_iff.mp h
    obtain rfl : v = w := hw rfl
    refine (ifZero_eq_ok _ _ _ _).mpr ⟨by rw [regImm_high]; rfl, ?_⟩
    rw [slotBits_toNat n hn, regImm_low r hr]
  case linkWr a b =>
    obtain rfl : (b ++ a : BitVec (16 + 16)) = w := hw rfl
    refine (ifZero_eq_ok _ _ _ _).mpr ⟨rfl, ?_⟩
    rw [linkOpd_low, linkOpd_high]

/-- Settles O4: the encoder writes the very operand word that the instruction reads. -/
theorem decodeOfEncodeIsIdentity : Obligations.DecodeOfEncodeIsIdentity :=
  fun _ h => decode_encodeCmd h fun _ => rfl

/-! ## The instruction of a legal word -/

theorem fieldsOf_assemble_zeros {op : BitVec 8} {s : BitVec 4} (hs : s = 0) :
    fieldsOf (assemble op 0 0 0) = ⟨op, s, 0, 0⟩ := by rw [fieldsOf_assemble, hs]

/-- The fields of a row with a legal kind code are those of an instruction, with any operand word where it reads one. -/
theorem exists_encodeCmd_of_rowFields {f : Fields} (w : Word) (hrow : RowFields f)
    (hkind : f.op = 0x01 → ∃ k : Kind, k.code = f.aux) :
    ∃ i, WellFormed i = true ∧ fieldsOf (encodeCmd i) = f ∧ (readsOpd i = true → encodeOpd i = w) := by
  obtain ⟨op, s, a, imm⟩ := f
  obtain ⟨n, hn, rfl⟩ := exists_slotBits s
  rcases hrow with ⟨rfl, hs, rfl, rfl⟩ | ⟨rfl, rfl⟩ | ⟨rfl, rfl, rfl⟩ | ⟨rfl, rfl⟩ | ⟨rfl, rfl, hz⟩ | ⟨rfl, rfl, rfl⟩ |
    ⟨rfl, rfl, rfl⟩ | ⟨rfl, rfl, rfl⟩ | ⟨rfl, rfl, hz⟩ | ⟨rfl, rfl, hz⟩ | ⟨rfl, rfl⟩ | ⟨rfl, rfl, rfl⟩ |
    ⟨rfl, hs, rfl, rfl⟩ | ⟨rfl, hs, rfl, rfl⟩ | ⟨rfl, hs, rfl, rfl⟩
  · exact ⟨.nop, rfl, fieldsOf_assemble_zeros hs, nofun⟩
  · obtain ⟨k, rfl⟩ := hkind rfl
    exact ⟨.construct n k, hn, fieldsOf_assemble .., nofun⟩
  · exact ⟨.destroy n, hn, fieldsOf_assemble .., nofun⟩
  · obtain ⟨m, hm, rfl⟩ := exists_slotBits a
    exact ⟨.dup n m, Bool.and_eq_true_iff.mpr ⟨hn, hm⟩, fieldsOf_assemble .., nofun⟩
  · obtain ⟨b, rfl⟩ := exists_flagImm hz
    exact ⟨.setActive n b, hn, fieldsOf_assemble .., nofun⟩
  · exact ⟨.getActive n, hn, fieldsOf_assemble .., nofun⟩
  · exact ⟨.setId n w, hn, fieldsOf_assemble .., fun _ => rfl⟩
  · exact ⟨.getId n, hn, fieldsOf_assemble .., nofun⟩
  · obtain ⟨r, hr, rfl⟩ := exists_regImm hz
    exact ⟨.setParam n r w, Bool.and_eq_true_iff.mpr ⟨hn, hr⟩, fieldsOf_assemble .., fun _ => rfl⟩
  · obtain ⟨r, hr, rfl⟩ := exists_regImm hz
    exact ⟨.getParam n r, Bool.and_eq_true_iff.mpr ⟨hn, hr⟩, fieldsOf_assemble .., nofun⟩
  · exact ⟨.process n imm, hn, fieldsOf_assemble .., nofun⟩
  · exact ⟨.bufRd n w, hn, fieldsOf_assemble .., fun _ => rfl⟩
  · exact ⟨.linkWr (w.extractLsb' 0 16) (w.extractLsb' 16 16), rfl, fieldsOf_assemble_zeros hs,
      fun _ => linkOpd_of_halves w⟩
  · exact ⟨.linkRd, rfl, fieldsOf_assemble_zeros hs, nofun⟩
  · exact ⟨.getStatus, rfl, fieldsOf_assemble_zeros hs, nofun⟩

/-- The instruction of a legal word, with the operand word it reads. -/
theorem exists_encodeCmd_of_legalCmd {cmd : Word} (w : Word) (h : LegalCmd cmd) :
    ∃ i, WellFormed i = true ∧ encodeCmd i = cmd ∧ (readsOpd i = true → encodeOpd i = w) := by
  obtain ⟨hrow, hkind⟩ := (legalCmd_iff cmd).mp h
  obtain ⟨i, hi, hf, hw⟩ := exists_encodeCmd_of_rowFields w hrow hkind
  exact ⟨i, hi, fieldsOf_injective hf, hw⟩

theorem decodeConstruct_eq_ok {f : Fields} {i : Instr} (h : decodeConstruct f = .ok i) :
    f.imm = 0 ∧ ∃ k : Kind, k.code = f.aux := by
  unfold decodeConstruct at h
  split at h
  · next k hk =>
    obtain ⟨hz, -⟩ := (ifZero_eq_ok _ _ _ _).mp h
    exact ⟨beq_iff_eq.mp hz, k, kind_code_of_ofCode _ k hk⟩
  · cases h

/-- What the decoder accepts selects a row: each branch but the last checks the zero bits of its row. -/
theorem rowFields_of_decodeFields {w : Word} {f : Fields} {i : Instr} (h : decodeFields f w = .ok i) :
    RowFields f ∧ (f.op = 0x01 → ∃ k : Kind, k.code = f.aux) := by
  unfold decodeFields at h
  split at h
  case h_2 hop =>
    obtain ⟨hz, hk⟩ := decodeConstruct_eq_ok h
    exact ⟨.inr (.inl ⟨BitVec.eq_of_toNat_eq hop, hz⟩), fun _ => hk⟩
  case h_16 => cases h
  all_goals
    next hop =>
    obtain ⟨-, hop⟩ := BitVec.toNat_eq_nat.mp hop
    obtain ⟨hz, -⟩ := (ifZero_eq_ok _ _ _ _).mp h
    simp only [Bool.and_eq_true, beq_iff_eq] at hz
    simp [RowFields, hop, hz]

theorem legalCmd_of_decode {r : Request} {i : Instr} (h : decode r = .ok i) : LegalCmd r.cmd :=
  (legalCmd_iff r.cmd).mpr (rowFields_of_decodeFields h)

/-- Settles O6: the decoder accepts only words with the fields of a row, and it reads back the instruction of each. -/
theorem decoderAcceptsExactlyLegalWords : Obligations.DecoderAcceptsExactlyLegalWords := by
  refine fun r => ⟨fun ⟨i, hi⟩ => legalCmd_of_decode hi, fun h => ?_⟩
  obtain ⟨cmd, w⟩ := r
  obtain ⟨i, hi, rfl, hw⟩ := exists_encodeCmd_of_legalCmd w h
  exact ⟨i, decode_encodeCmd hi hw⟩

/-- Settles O5: the word that was read is the encoding of an instruction, and the decoder answers no other. -/
theorem encodeOfDecodeIsIdentity : Obligations.EncodeOfDecodeIsIdentity := by
  rintro ⟨cmd, w⟩ j hj
  obtain ⟨i, hi, rfl, hw⟩ := exists_encodeCmd_of_legalCmd w (legalCmd_of_decode hj)
  obtain rfl : i = j := Except.ok.inj ((decode_encodeCmd hi hw).symm.trans hj)
  refine ⟨hi, rfl, ?_⟩
  cases hr : readsOpd i with
  | true => exact .inl (hw hr)
  | false => exact .inr ⟨encodeOpd_of_not_readsOpd hr, fun _ => decode_encodeCmd hi (by simp [hr])⟩

/-- Settles O3: the decoder computes each of the twelve. -/
theorem specWordsDecode : Obligations.SpecWordsDecode :=
  ⟨rfl, rfl, rfl, rfl, rfl, rfl, rfl, rfl, rfl, rfl, rfl, rfl⟩

/-! ## The checks before every other -/

/-- Settles O8: the decoder rejects the word, and the step answers for every reason alike. -/
theorem illegalWordAnswersErrIllegal : Obligations.IllegalWordAnswersErrIllegal := by
  intro s r hr hillegal
  rcases step_cases s with ⟨hn, -⟩ | ⟨r', er, -, -, hstep⟩ | ⟨r', i, hr', hd, -⟩
  · cases hn.symm.trans hr
  · rw [hstep, respond_eq_answeredErr s (by decide)]
  · obtain rfl : r' = r := Option.some.inj (hr'.symm.trans hr)
    exact absurd (legalCmd_of_decode hd) hillegal

/-- Settles O10: a command with a slot field checks it first, and `DUP` checks its destination before it looks at its
source. -/
theorem missingSlotAnswersErrSlot : Obligations.MissingSlotAnswersErrSlot := by
  rintro i s ⟨k, hk, hge⟩
  rw [← respond_eq_answeredErr s (by decide)]
  cases i with
  | nop | linkWr | linkRd | getStatus => cases hk
  | construct j | destroy j =>
    obtain rfl := List.mem_singleton.mp hk
    exact checkSlot_of_ge s k _ hge
  | dup i j =>
    rcases checkSlot_cases s j (s.withUnit i _) with ⟨-, h⟩ | ⟨hj, h⟩
    · exact h
    · obtain rfl | rfl : k = i ∨ k = j := by simpa [slotOperands] using hk
      · exact h.trans (withUnit_of_none s k _ hge)
      · exact absurd hj (Nat.not_lt.mpr hge)
  | setActive j | getActive j | setId j | getId j | setParam j | getParam j | process j | bufRd j =>
    obtain rfl := List.mem_singleton.mp hk
    exact withUnit_of_none s k _ hge

end Sys2Proof
end

section
/-! PROOFS. The statements of the management family (40_management.md): the failed checks of R110, and what each command
but `PROCESS` answers and leaves when its checks pass (R111 to R127). `Ran` says what a completed command does; that
`exec` answers it is one lemma here, and each statement reads off its case. -/

namespace Sys2Proof.Machine

open Sys2Proof.Spec

/-! ## A command whose checks pass completes -/

theorem exec_process_of_active {s : State} {i : Nat} {x : Sample} {u : EffectUnit} (hu : Holds s i u)
    (ha : u.active = true) : exec (.process i x) s = processActive i u x s :=
  (withUnit_of_some s i u _ hu).trans (if_pos ha)

theorem exec_dup_of_holds {s : State} {i j : Nat} {u : EffectUnit} (hu : Holds s i u) (hj : j < s.nslot) :
    exec (.dup i j) s = if i = j then s.finish 0 else ((s.setSlot j (some u)).emit (dupEvents i j u.effect)).finish 0 :=
  (checkSlot_of_lt s j _ hj).trans (withUnit_of_some s i u _ hu)

/-- The converse of `exec_answers`: what a run leaves and answers is what `exec` gives. -/
theorem Ran.exec_eq {s t : State} {i : Instr} {v : Word} (h : Ran s i t v) : exec i s = .next (answeredOk t v) := by
  rw [← respond_ok_eq_answeredOk]
  cases h with
  | nop | linkWr | linkRd | getStatus => rfl
  | construct j k hj | destroy j hj => exact checkSlot_of_lt s j _ hj
  | dupSelf j u hu =>
    obtain ⟨hj, -⟩ := List.getElem?_eq_some_iff.mp hu
    exact (exec_dup_of_holds hu hj).trans (if_pos rfl)
  | dup j k u hu hk hn => exact (exec_dup_of_holds hu hk).trans (if_neg hn)
  | setActive j b u hu | setId j n u hu | getActive j u hu | getId j u hu => exact withUnit_of_some s j u _ hu
  | setParam j r w u reg hu hr => exact exec_setParam_of_rw w hu hr
  | getParam j r u w hu hw => rw [exec_getParam_of_regWords hu hw, respond_ok_eq_answeredOk]
  | bufRd j k u z hu hz =>
    rw [exec, execBufRd, withUnit_of_some s j u _ hu, hz]
    rfl
  | bypass j x u hu ha =>
    rw [exec, execProcess, withUnit_of_some s j u _ hu, ha]
    rfl
  | boost j x u _ hu ha he | distortion j x u _ hu ha he | fuzz j x u _ hu ha he | tremolo j x u _ hu ha he
  | adsr j x u _ hu ha he | pitch j x u _ hu ha he =>
    rw [exec_process_of_active hu ha, processActive, he]
    rfl
  | delay j x u d d' y hu ha he hy =>
    rw [exec_process_of_active hu ha, processActive, he]
    simp only [processDelay, hy, finish_eq]
  | compSk j x u r tg hu ha he ht | compLog j x u r tg hu ha he ht =>
    rw [exec_process_of_active hu ha, processActive, he]
    simp only [processComp, ht, finish_eq]

/-! ## The failed checks -/

/-- Settles O11: the slot exists, so the command reaches check 3, and `DUP` has looked at its destination before. -/
theorem emptySlotAnswersErrEmpty : Obligations.EmptySlotAnswersErrEmpty := by
  intro i s k hneed hslots hk
  rw [← respond_eq_answeredErr s (by decide)]
  cases i with
  | nop | construct | destroy | linkWr | linkRd | getStatus => cases hneed
  | dup i j =>
    cases hneed
    exact (checkSlot_of_lt s j _ (hslots j (by simp [slotOperands]))).trans (withUnit_of_empty s k _ hk)
  | setActive | getActive | setId | getId | setParam | getParam | process | bufRd =>
    cases hneed
    exact withUnit_of_empty s k _ hk

/-- Of the registers of a kind only the first `writableCount` are `RW`. -/
theorem lt_writableCount_of_rw {k : Kind} {r : Nat} {reg : Reg} (h : (regMap k)[r]? = some (reg, .rw)) :
    r < writableCount k := by
  have haccess : ∀ r < (regMap k).length, ((regMap k)[r]?).map Prod.snd = some .rw → r < writableCount k := by
    cases k <;> decide
  obtain ⟨hlt, -⟩ := List.getElem?_eq_some_iff.mp h
  exact haccess r hlt (by rw [h]; rfl)

theorem regWords_length (e : Effect) : e.regWords.length = regCount e.kind := by
  cases e <;> rfl

theorem bufElement_eq_none {k : Nat} {e : Effect} (h : ∀ d, e = .delay d → d.len.toNat ≤ k) :
    bufElement k e = none := by
  cases e with
  | delay d => exact if_neg (Nat.not_lt.mpr (h d rfl))
  | _ => rfl

theorem exec_setParam_of_ge {s : State} {i r : Nat} {u : EffectUnit} (v : Word) (hu : Holds s i u)
    (hr : writableCount u.effect.kind ≤ r) : exec (.setParam i r v) s = .next (answeredErr s .errReg) := by
  rw [exec, execSetParam, withUnit_of_some s i u _ hu, ← respond_eq_answeredErr s (by decide)]
  rcases hreg : (regMap u.effect.kind)[r]? with _ | ⟨reg, _ | _⟩
  · rfl
  · exact absurd (lt_writableCount_of_rw hreg) (Nat.not_lt.mpr hr)
  · rfl

theorem exec_getParam_of_ge {s : State} {i r : Nat} {u : EffectUnit} (hu : Holds s i u)
    (hr : regCount u.effect.kind ≤ r) : exec (.getParam i r) s = .next (answeredErr s .errReg) := by
  have hnone : u.effect.regWords[r]? = none := List.getElem?_eq_none ((regWords_length u.effect).trans_le hr)
  rw [exec, execGetParam, withUnit_of_some s i u _ hu, hnone, ← respond_eq_answeredErr s (by decide)]
  rfl

theorem exec_bufRd_of_no_element {s : State} {i : Nat} {k : Word} {u : EffectUnit} (hu : Holds s i u)
    (hk : ∀ d, u.effect = .delay d → d.len.toNat ≤ k.toNat) :
    exec (.bufRd i k) s = .next (answeredErr s .errReg) := by
  rw [exec, execBufRd, withUnit_of_some s i u _ hu, bufElement_eq_none hk, ← respond_eq_answeredErr s (by decide)]
  rfl

/-- Settles O12: one lemma per command with check 4. -/
theorem badRegisterAnswersErrReg : Obligations.BadRegisterAnswersErrReg :=
  fun _ _ _ hu =>
    ⟨fun _ v => exec_setParam_of_ge v hu, fun _ => exec_getParam_of_ge hu, fun _ => exec_bufRd_of_no_element hu⟩

/-! ## The slot commands -/

/-- Settles O15: `NOP` always completes. -/
theorem nopOnlyAnswersOk : Obligations.NopOnlyAnswersOk := fun _ => Ran.nop.exec_eq

/-- Settles O18: an existing slot is the only check of `DESTROY`. -/
theorem destroyEmptiesSlot : Obligations.DestroyEmptiesSlot := fun _ i hi => (Ran.destroy i hi).exec_eq

theorem dupEvents_eq_cloneEvents (i j : Nat) (e : Effect) : dupEvents i j e = cloneEvents i j e := by
  cases e <;> rfl

/-- Settles O19: the two ways `DUP` completes, with the events of R114. -/
theorem dupCopiesInstance : Obligations.DupCopiesInstance := by
  refine fun s i j u hu hj => ⟨?_, fun hn => ?_⟩
  · rintro rfl
    exact (Ran.dupSelf i u hu).exec_eq
  · rw [← dupEvents_eq_cloneEvents]
    exact (Ran.dup i j u hu hj hn).exec_eq

/-- Settles O20: both commands complete, and the answered word is the flag. -/
theorem activeFlagIsWrittenAndRead : Obligations.ActiveFlagIsWrittenAndRead := by
  refine fun s i b u hu => ⟨(Ran.setActive i b u hu).exec_eq, ?_⟩
  rw [← zeroExtend_ofBool]
  exact (Ran.getActive i u hu).exec_eq

/-- Settles O21: both commands complete. -/
theorem idIsWrittenAndRead : Obligations.IdIsWrittenAndRead :=
  fun _ i n u hu => ⟨(Ran.setId i n u hu).exec_eq, (Ran.getId i u hu).exec_eq⟩

/-! ## The write of a register -/

/-- `SETPARAM` of a `RW` register in the spec's terms. -/
theorem exec_setParam_eq_putEffect {s : State} {i r : Nat} {u : EffectUnit} {reg : Reg} {e : Effect} (v : Word)
    (hu : Holds s i u) (hreg : (regMap u.effect.kind)[r]? = some (reg, .rw))
    (he : writeParam s.config u.effect reg v = e) :
    exec (.setParam i r v) s = .next (answeredOk (traced (putEffect s i u e) (writeEvents i e)) 0) :=
  he ▸ (Ran.setParam i r v u reg hu hreg).exec_eq

theorem traced_nil (s : State) : traced s [] = s := by simp [traced]

theorem exec_setParam_of_no_event {s : State} {i r : Nat} {u : EffectUnit} {reg : Reg} {e : Effect} (v : Word)
    (hu : Holds s i u) (hreg : (regMap u.effect.kind)[r]? = some (reg, .rw))
    (he : writeParam s.config u.effect reg v = e) (hev : writeEvents i e = []) :
    exec (.setParam i r v) s = .next (answeredOk (putEffect s i u e) 0) := by
  rw [exec_setParam_eq_putEffect v hu hreg he, hev, traced_nil]

theorem put_eq_stored {e : Effect} {r : Nat} {reg : Reg} (w : Word) (h : (regMap e.kind)[r]? = some (reg, .rw)) :
    e.put reg w = stored e r w := by
  cases e with
  | boost | adsrGain | pitchShift => rcases r with _ | r <;> cases h; rfl
  | distortion | fuzz => rcases r with _ | _ | r <;> cases h <;> rfl
  | tremolo | delay => rcases r with _ | _ | _ | _ | _ | _ | r <;> cases h <;> rfl
  | compSk | compLog => rcases r with _ | _ | _ | _ | _ | _ | _ | r <;> cases h <;> rfl

/-- A Tremolo or a Delay has a side effect on `DURATION_MS` and `SAMPLERATE` alone (R121 a, c, d). -/
theorem afterWrite_of_plainWrite (c : Config) {e : Effect} {r : Nat} {reg : Reg} (hp : plainWrite e.kind r = true)
    (hreg : (regMap e.kind)[r]? = some (reg, .rw)) : afterWrite c reg e = e := by
  cases e with
  | tremolo t =>
    obtain rfl : r = 1 := beq_iff_eq.mp hp
    cases hreg
    rfl
  | delay d =>
    obtain rfl | rfl : r = 1 ∨ r = 2 := by simpa [plainWrite, Effect.kind] using hp
    all_goals
      cases hreg
      rfl
  | _ => rfl

theorem writeEvents_of_plainWrite (i : Nat) {e : Effect} {r : Nat} (hp : plainWrite e.kind r = true) :
    writeEvents i e = [] := by
  cases e with
  | pitchShift w => cases hp
  | _ => rfl

theorem writeParam_of_plainWrite (c : Config) {e : Effect} {r : Nat} {reg : Reg} (v : Word)
    (hp : plainWrite e.kind r = true) (hreg : (regMap e.kind)[r]? = some (reg, .rw)) :
    writeParam c e reg v = stored e r (clampedWord e.kind r v) := by
  rw [writeParam, afterWrite_of_plainWrite c (r := r) (by rwa [put_kind]) (by rwa [put_kind]), put_eq_stored _ hreg,
    wclamp_eq_clampedWord v hreg]

/-- Settles O22: the write has no side effect, in the slot or on a port. -/
theorem setParamStoresClampedWord : Obligations.SetParamStoresClampedWord := by
  intro s i r v u hu hr hp
  obtain ⟨reg, hreg⟩ := exists_rw_of_lt_writableCount hr
  have hev : writeEvents i (writeParam s.config u.effect reg v) = [] :=
    writeEvents_of_plainWrite i (r := r) (by rwa [writeParam_kind])
  rw [exec_setParam_of_no_event v hu hreg rfl hev, writeParam_of_plainWrite s.config v hp hreg]

theorem tremoloLower_eq (t : TremoloRegs) :
    tremoloLower t = { t with counter := if t.counter.toNat ≤ t.half then t.counter else BitVec.ofNat 32 t.half } := by
  unfold tremoloLower
  split <;> rfl

/-- Settles O23: either register is stored unclamped, then the counter is lowered. -/
theorem setParamLowersTremoloCounter : Obligations.SetParamLowersTremoloCounter := by
  rintro s i r v ⟨id, active, _⟩ t hu rfl (rfl | rfl)
  · have hw := congrArg Effect.tremolo (tremoloLower_eq { t with durationMs := v })
    exact exec_setParam_of_no_event (reg := .durationMs) v hu rfl hw rfl
  · have hw := congrArg Effect.tremolo (tremoloLower_eq { t with sampleRate := v })
    exact exec_setParam_of_no_event (reg := .sampleRate) v hu rfl hw rfl

theorem delayResize_of_eq {c : Config} {d : DelayRegs} (h : d.targetLen c = d.len.toNat) : delayResize c d = d :=
  if_pos h

theorem delayResize_of_ne {c : Config} {d : DelayRegs} (h : d.targetLen c ≠ d.len.toNat) :
    delayResize c d = delayFill d (d.targetLen c) :=
  if_neg h

/-- Every field after a resize (R182). -/
theorem delayResize_fields (c : Config) (d : DelayRegs) :
    (delayResize c d).durationMs = d.durationMs ∧ (delayResize c d).sampleRate = d.sampleRate ∧
    (delayResize c d).depth = d.depth ∧ (delayResize c d).feedback = d.feedback ∧
    (delayResize c d).len.toNat = d.targetLen c ∧
    (d.targetLen c = d.len.toNat → (delayResize c d).cursor = d.cursor ∧
      ∀ k, Memory.read (delayResize c d).mem k = Memory.read d.mem k) ∧
    (d.targetLen c ≠ d.len.toNat → (delayResize c d).cursor = 0 ∧
      ∀ k, Memory.read (delayResize c d).mem k = 0) := by
  by_cases h : d.targetLen c = d.len.toNat
  · rw [delayResize_of_eq h]
    exact ⟨rfl, rfl, rfl, rfl, h.symm, fun _ => ⟨rfl, fun _ => rfl⟩, fun hn => absurd h hn⟩
  · rw [delayResize_of_ne h]
    have hlen : (delayFill d (d.targetLen c)).len.toNat = d.targetLen c :=
      (BitVec.toNat_ofNat _ _).trans (Nat.mod_eq_of_lt (targetLen_lt c d))
    exact ⟨rfl, rfl, rfl, rfl, hlen, fun he => absurd he h, fun _ => ⟨rfl, Memory.read_zero⟩⟩

/-- Settles O24: either register is stored unclamped, then the line is resized. -/
theorem setParamResizesDelay : Obligations.SetParamResizesDelay := by
  rintro s i r v ⟨id, active, _⟩ d hu rfl (rfl | rfl)
  · exact ⟨_, exec_setParam_of_no_event (reg := .durationMs) v hu rfl rfl rfl,
      delayResize_fields s.config { d with durationMs := v }⟩
  · exact ⟨_, exec_setParam_of_no_event (reg := .sampleRate) v hu rfl rfl rfl,
      delayResize_fields s.config { d with sampleRate := v }⟩

/-- Settles O25: `SHIFTRATIO` has no clamp, and the write emits it. -/
theorem setParamSetsPitchIncrement : Obligations.SetParamSetsPitchIncrement := by
  rintro s i v w ⟨id, active, _⟩ hu rfl
  exact exec_setParam_eq_putEffect (reg := .shiftRatio) v hu rfl rfl

/-! ## The reading commands -/

theorem regValue_isSome_iff (e : Effect) (r : Nat) : (∃ w, regValue e r = some w) ↔ r < regCount e.kind := by
  rw [regValue_eq_regWords, ← regWords_length, ← Option.isSome_iff_exists, isSome_getElem?]

/-- Settles O26: the machine's list of registers is the spec's table. -/
theorem getParamReturnsRegister : Obligations.GetParamReturnsRegister :=
  ⟨fun _ _ r u _ hu hw => exec_getParam_of_regWords hu ((regValue_eq_regWords u.effect r).symm.trans hw),
   regValue_isSome_iff⟩

/-- Settles O28: the element exists (R12). -/
theorem bufRdReturnsElement : Obligations.BufRdReturnsElement := by
  intro s i k u d hu he hk
  have hz : bufElement k.toNat u.effect = some (Memory.read d.mem k.toNat) := by
    rw [he]
    exact if_pos hk
  exact (Ran.bufRd i k u _ hu hz).exec_eq

/-! ## The stereo link and the status -/

theorem pairWord_eq_ofNat (a b : Sample) : pairWord a b = BitVec.ofNat 32 (b.toNat * 65536 + a.toNat) := by
  have ha := a.isLt
  have hb := b.isLt
  apply BitVec.eq_of_toNat_eq
  rw [pairWord, BitVec.toNat_append, ← Nat.shiftLeft_add_eq_or_of_lt ha, Nat.shiftLeft_eq,
    BitVec.toNat_ofNat, Nat.mod_eq_of_lt (by omega)]

theorem decode_linkWr (w : Word) :
    decode ⟨0x0C000000, w⟩ = .ok (.linkWr (w.extractLsb' 0 16) (w.extractLsb' 16 16)) := by
  have hcmd : (0x0C000000 : Word) = assemble 0x0C 0 0 0 := by decide
  rw [hcmd]
  exact decode_encodeCmd (i := .linkWr _ _) rfl fun _ => linkOpd_of_halves w

theorem lowHalf_toNat (w : Word) : (w.extractLsb' 0 16).toNat = w.toNat % 2 ^ 16 := by
  rw [BitVec.extractLsb'_toNat, Nat.shiftRight_zero]

theorem highHalf_toNat (w : Word) : (w.extractLsb' 16 16).toNat = w.toNat / 2 ^ 16 := by
  have := w.isLt
  rw [BitVec.extractLsb'_toNat, Nat.shiftRight_eq_div_pow, Nat.mod_eq_of_lt (by omega)]

/-- Settles O29: the halves of the operand word, and the pair as one word again. -/
theorem linkPairIsLoadedAndRead : Obligations.LinkPairIsLoadedAndRead := by
  refine ⟨fun s w => ⟨_, _, decode_linkWr w, lowHalf_toNat w, highHalf_toNat w, (Ran.linkWr _ _).exec_eq⟩,
    fun s a b => (Ran.linkWr a b).exec_eq, fun s => ?_⟩
  rw [← pairWord_eq_ofNat]
  exact Ran.linkRd.exec_eq

theorem statusWord_eq_ofNat (engaged : Bool) (st : Status) :
    statusWord engaged st = BitVec.ofNat 32 ((if engaged then 1 else 0) + 16 * st.code.toNat) := by
  cases engaged <;> cases st <;> rfl

/-- Settles O30: the codes of R251 are those of `Status.code`. -/
theorem getStatusReturnsFlags : Obligations.GetStatusReturnsFlags := by
  intro s
  rw [Ran.getStatus.exec_eq, statusWord_eq_ofNat]
  cases s.firstErr <;> rfl

end Sys2Proof.Machine
end

section
/-! PROOFS. The statements of the static `PROCESS` family (41_process_static.md): the bypass (R141), the three effects
without running state (R146 to R148), `clip` (R142, R143), and the range of the answer (R149). `Ran` says what a
completed `PROCESS` answers, kind by kind; each statement but the last two is one of its cases. -/

namespace Sys2Proof.Machine

open Sys2Proof.Spec

/-! ## Bypass and the effects without running state -/

/-- Settles O31: the bypass is the case of an inactive slot. -/
theorem bypassReturnsInputUnchanged : Obligations.BypassReturnsInputUnchanged :=
  fun _ i x u hu ha => (Ran.bypass i x u hu ha).exec_eq

/-- Settles O32: `boostSample` is the formula of R146. -/
theorem processBoostScales : Obligations.ProcessBoostScales :=
  fun _ i x u v hu ha he => (Ran.boost i x u v hu ha he).exec_eq

/-- Settles O33: `distortSample` is `clip3`, whose definition is the three cases of R142. -/
theorem processDistortionClips : Obligations.ProcessDistortionClips :=
  fun _ i x u d hu ha he => (Ran.distortion i x u d hu ha he).exec_eq

/-- Settles O34: `fuzzSample` and `fuzzMap` are the three lines of R148. -/
theorem processFuzzMapsTwice : Obligations.ProcessFuzzMapsTwice :=
  fun _ i x u f hu ha he => (Ran.fuzz i x u f hu ha he).exec_eq

/-! ## Saturation -/

theorem clip3_of_gt {v l : Int} (r : Int) (h : v > l) : clip3 v l r = r := if_pos h

/-- With a negative `l` a value below `-l` could lie above `l` as well, and the first case would apply. -/
theorem clip3_of_lt {v l : Int} (r : Int) (hl : 0 ≤ l) (h : v < -l) : clip3 v l r = -r :=
  (if_neg (by omega)).trans (if_pos h)

theorem clip3_of_between {v l : Int} (r : Int) (h1 : -l ≤ v) (h2 : v ≤ l) : clip3 v l r = v :=
  (if_neg (by omega)).trans (if_neg (by omega))

/-- Whichever of `l` and `r` is the larger bounds the result (R142). -/
theorem clip3_between_max (v : Int) {l r : Int} (hl : 0 ≤ l) (hr : 0 ≤ r) :
    -(max l r) ≤ clip3 v l r ∧ clip3 v l r ≤ max l r := by
  rcases lt_or_ge l v with h | h2
  · rw [clip3_of_gt r h]
    omega
  · rcases lt_or_ge v (-l) with h | h1
    · rw [clip3_of_lt r hl h]
      omega
    · rw [clip3_of_between r h1 h2]
      omega

/-- Settles O43: the one-argument `clip` is `clip3` at 32767, and with `l ≤ r` the larger bound is `r`. -/
theorem clipSaturates : Obligations.ClipSaturates := by
  refine ⟨fun v => ⟨clip3_of_gt _, clip3_of_lt _ (by decide), clip_eq_self v⟩, fun v l r hl hl' hr hr' => ?_⟩
  obtain ⟨hlo, hhi⟩ := clip3_between_max v hl hr
  refine ⟨clip3_of_gt r, clip3_of_lt r hl, clip3_of_between r, fun hle => ?_, hlo, hhi,
    clip3_range v l r hl hl' hr hr'⟩
  rw [max_eq_right hle] at hlo hhi
  exact ⟨hlo, hhi⟩

/-! ## The range of the answer -/

/-- The range R149 gives the answer `y` of `PROCESS` on a slot that holds `u`. -/
def AnswerInRange (u : EffectUnit) (y : Int) : Prop :=
  -32768 ≤ y ∧ y ≤ 32767 ∧ (u.active = true → u.effect.kind ≠ .pitchShift → -32767 ≤ y)

theorem answerInRange_of_clipped (u : EffectUnit) {y : Int} (h : -32767 ≤ y ∧ y ≤ 32767) : AnswerInRange u y :=
  ⟨by omega, h.2, fun _ _ => h.1⟩

/-- A sample answered as it came, which only an inactive slot and a PitchShift do, may be -32768. -/
theorem answerInRange_of_sample {u : EffectUnit} (x : Sample)
    (h : u.active = false ∨ u.effect.kind = .pitchShift) : AnswerInRange u x.toInt := by
  obtain ⟨hlo, hhi⟩ := sample_toInt_range x
  refine ⟨hlo, hhi, fun ha hk => ?_⟩
  rcases h with h | h
  · cases ha.symm.trans h
  · exact absurd h hk

theorem tremoloSample_range (m : Rounding) (t : TremoloRegs) (x : Sample) :
    -32767 ≤ tremoloSample m t x ∧ tremoloSample m t x ≤ 32767 := by
  unfold tremoloSample
  dsimp only
  split <;> exact clip_range _

/-- In a state in range `PROCESS` on a slot that holds an effect unit completes, and its answer is in the range of R149:
the effect's last operation is `clip`, except for the bypass and PitchShift, which pass a sample on. -/
theorem exists_ran_process {s : State} {i : Nat} {u : EffectUnit} (hs : Inv s) (hu : Holds s i u) (x : Sample) :
    ∃ t y, Ran s (.process i x) t (sampleResult y) ∧ AnswerInRange u y := by
  cases ha : u.active with
  | false => exact ⟨_, _, .bypass i x u hu ha, answerInRange_of_sample x (.inl ha)⟩
  | true =>
    cases he : u.effect with
    | boost v => exact ⟨_, _, .boost i x u v hu ha he, answerInRange_of_clipped u (clip_range _)⟩
    | distortion r =>
      obtain ⟨hl, hr⟩ := of_decide_eq_true (effectOk_of_holds hs hu he)
      exact ⟨_, _, .distortion i x u r hu ha he,
        answerInRange_of_clipped u (clip3_range _ _ _ (by omega) (by omega) (by omega) (by omega))⟩
    | fuzz r => exact ⟨_, _, .fuzz i x u r hu ha he, answerInRange_of_clipped u (clip_range _)⟩
    | tremolo tr => exact ⟨_, _, .tremolo i x u tr hu ha he, answerInRange_of_clipped u (tremoloSample_range _ tr x)⟩
    | delay d =>
      have hok : DelayOk s.config d := of_decide_eq_true (effectOk_of_holds hs hu he)
      obtain ⟨y, d', hstep, -, hy⟩ := delayStep_ok s.config s.config.rounding d x hok
      exact ⟨_, y, .delay i x u d d' y hu ha he hstep, answerInRange_of_clipped u hy⟩
    | adsrGain b => exact ⟨_, _, .adsr i x u b hu ha he, answerInRange_of_clipped u (clip_range _)⟩
    | pitchShift w => exact ⟨_, _, .pitch i x u w hu ha he, answerInRange_of_sample _ (.inr (by rw [he]; rfl))⟩
    | compSk r =>
      obtain ⟨-, hknee, -⟩ := hs.1
      obtain ⟨tg, ht, -⟩ := kneeTarget_ok s.config r (level x) hknee
      exact ⟨_, _, .compSk i x u r tg hu ha he ht, answerInRange_of_clipped u (applyGain_range _ _ _)⟩
    | compLog r =>
      have hok : CompOk s.config 1 99 r := of_decide_eq_true (effectOk_of_holds hs hu he)
      obtain ⟨-, -, -, -, -, -, hlog, -⟩ := hs.1
      obtain ⟨tg, ht, -⟩ := logTarget_ok s.config r (level x) hlog hok.1 hok.2.1
      exact ⟨_, _, .compLog i x u r tg hu ha he ht, answerInRange_of_clipped u (applyGain_range _ _ _)⟩

/-- Settles O48: the next state is that of the run above, whose one response carries an answer in range. -/
theorem processAnswersASample : Obligations.ProcessAnswersASample := by
  intro s t i x u hs hu h
  obtain ⟨r, y, hran, hy⟩ := exists_ran_process hs hu x
  obtain ⟨-, -, -, hresp⟩ := hran.host
  cases h.symm.trans hran.exec_eq
  refine ⟨y, ?_, hy⟩
  rw [answeredOk, hresp]
  rfl

end Sys2Proof.Machine
end

section
/-! PROOFS. The statements of the Tremolo family (42_tremolo.md): the output and the counter step of an active `PROCESS`
(R162, R163), the half period 0 (R164), the triangle a run of samples goes through (R167), and the bound on the magnitude
(R168). -/

namespace Sys2Proof.Machine

open Sys2Proof.Spec

/-! ## One sample -/

theorem exec_process_tremolo {s : State} {i : Nat} {u : EffectUnit} {t : TremoloRegs} (x : Sample) (hu : Holds s i u)
    (ha : u.active = true) (he : u.effect = .tremolo t) :
    exec (.process i x) s = .next (answeredOk (putEffect s i u (.tremolo (tremoloAdvance t)))
      (BitVec.ofInt 32 (tremoloSample s.config.rounding t x))) :=
  (Ran.tremolo i x u t hu ha he).exec_eq

theorem tremoloAdvance_of_half_eq_zero {t : TremoloRegs} (h : t.half = 0) :
    tremoloAdvance t = { t with counter := 0 } := if_pos h

theorem tremoloSample_of_half_eq_zero (m : Rounding) {t : TremoloRegs} (x : Sample) (h : t.half = 0) :
    tremoloSample m t x = clip (quot m (x.toInt * (100 - (t.depthPercent.toNat : Int))) 100) := if_pos h

theorem tremoloSample_of_half_ne_zero (m : Rounding) {t : TremoloRegs} (x : Sample) (h : t.half ≠ 0) :
    tremoloSample m t x = clip (quot m (x.toInt * ((100 - (t.depthPercent.toNat : Int)) * t.half +
      t.depthPercent.toNat * t.counter.toNat)) (100 * t.half)) := if_neg h

/-- The counter step as one over the natural numbers: no word wraps (R163). -/
theorem tremoloAdvance_of_half_ne_zero {t : TremoloRegs} (h : t.half ≠ 0) (hc : t.counter.toNat ≤ t.half) :
    tremoloAdvance t = { t with
      dir := directionAt t.counter.toNat t.half t.dir
      counter := BitVec.ofNat 32
        (if directionAt t.counter.toNat t.half t.dir then t.counter.toNat - 1 else t.counter.toNat + 1) } := by
  rw [← tremoloAdvance_counter t h hc, BitVec.ofNat_toNat, BitVec.setWidth_eq, tremoloAdvance, if_neg h]

/-- Settles O35: the output and the counter step of a half period that is not 0. -/
theorem processTremoloModulates : Obligations.ProcessTremoloModulates := by
  intro s i x u t hu ha he hh hc
  have h : t.half ≠ 0 := Nat.one_le_iff_ne_zero.mp hh
  rw [exec_process_tremolo x hu ha he, tremoloAdvance_of_half_ne_zero h hc, tremoloSample_of_half_ne_zero _ x h]
  rfl

/-- Settles O36: the output and the counter of a half period of 0. -/
theorem processTremoloAtRest : Obligations.ProcessTremoloAtRest := by
  intro s i x u t hu ha he hh
  rw [exec_process_tremolo x hu ha he, tremoloAdvance_of_half_eq_zero hh, tremoloSample_of_half_eq_zero _ x hh]

/-! ## Magnitude -/

/-- `y` is no larger in magnitude than `x`, and has its sign or is 0 (R168). -/
def Attenuates (y x : Int) : Prop := y.natAbs ≤ x.natAbs ∧ 0 ≤ y * x

theorem attenuates_of_nonneg {y x : Int} (h0 : 0 ≤ y) (hx : y ≤ x) : Attenuates y x :=
  ⟨by omega, mul_nonneg h0 (h0.trans hx)⟩

theorem attenuates_of_nonpos {y x : Int} (hx : x ≤ y) (h0 : y ≤ 0) : Attenuates y x :=
  ⟨by omega, mul_nonneg_of_nonpos_of_nonpos h0 (hx.trans h0)⟩

/-- Scaling by a gain `k / b` between 0 and 1, under either rounding, with the saturation after it. -/
theorem clip_quot_attenuates (m : Rounding) (x : Int) {k b : Int} (hb : 0 < b) (h0 : 0 ≤ k) (hk : k ≤ b) :
    Attenuates (clip (quot m (x * k) b)) x := by
  rcases le_total 0 x with hx | hx
  · obtain ⟨hlo, hhi⟩ := quot_between m (x * k) b 0 x hb (by nlinarith) (by nlinarith)
    obtain ⟨hclip0, hclip⟩ := (clip_magnitude _).1 hlo
    exact attenuates_of_nonneg hclip0 (hclip.trans hhi)
  · obtain ⟨hlo, hhi⟩ := quot_between m (x * k) b x 0 hb (by nlinarith) (by nlinarith)
    obtain ⟨hclip, hclip0⟩ := (clip_magnitude _).2 hhi
    exact attenuates_of_nonpos (hlo.trans hclip) hclip0

/-- The gain of a Tremolo in range lies between 0 and 1, whatever the half period. -/
theorem tremoloSample_attenuates (m : Rounding) {t : TremoloRegs} (x : Sample) (h : TremoloOk t) :
    Attenuates (tremoloSample m t x) x.toInt := by
  obtain ⟨hp, hc⟩ := h
  by_cases h0 : t.half = 0
  · rw [tremoloSample_of_half_eq_zero m x h0]
    exact clip_quot_attenuates m _ (by omega) (by omega) (by omega)
  · rw [tremoloSample_of_half_ne_zero m x h0]
    have hrest : 0 ≤ (100 - (t.depthPercent.toNat : Int)) * t.half := mul_nonneg (by omega) (by omega)
    have hpart : 0 ≤ (t.depthPercent.toNat : Int) * t.counter.toNat := mul_nonneg (by omega) (by omega)
    have hle : (t.depthPercent.toNat : Int) * t.counter.toNat ≤ t.depthPercent.toNat * t.half :=
      mul_le_mul_of_nonneg_left (by omega) (by omega)
    exact clip_quot_attenuates m _ (by omega) (by omega) (by linarith)

/-- Settles O49: the answer of the run is `tremoloSample`. -/
theorem tremoloNeverAmplifies : Obligations.TremoloNeverAmplifies :=
  fun _ _ x _ _ hu ha he hok =>
    ⟨_, _, exec_process_tremolo x hu ha he, rfl, tremoloSample_attenuates _ x hok⟩

/-! ## Runs of `PROCESS` -/

theorem holds_putEffect {s : State} {i : Nat} {u : EffectUnit} (hu : Holds s i u) (e : Effect) :
    Holds (putEffect s i u e) i { u with effect := e } := by
  obtain ⟨hi, -⟩ := List.getElem?_eq_some_iff.mp hu
  exact setSlot_get_same s i _ hi

theorem runAll_cons_of_next {i : Instr} {is : List Instr} {s t : State} (h : exec i s = .next t) :
    runAll (i :: is) s = runAll is t := by
  rw [runAll, h]

/-- If `PROCESS` leads from each state of place `n` to one of place `n + 1` and answers `out n x`, a run over `xs` leads
`xs.length` places on, and its responses are the answers in turn. -/
theorem runAll_process {i : Nat} {place : Nat → State → Prop} {out : Nat → Sample → Word}
    (hstep : ∀ n s x, place n s → ∃ t, exec (.process i x) s = .next t ∧ place (n + 1) t ∧
      t.responses = s.responses ++ [⟨.ok, out n x⟩])
    (xs : List Sample) (n : Nat) (s : State) (hs : place n s) :
    ∃ t, runAll (xs.map (.process i)) s = some t ∧ place (n + xs.length) t ∧
      t.responses = s.responses ++ (xs.zipIdx n).map fun xn => ⟨.ok, out xn.2 xn.1⟩ := by
  induction xs generalizing n s with
  | nil => exact ⟨s, rfl, hs, (List.append_nil _).symm⟩
  | cons x xs ih =>
    obtain ⟨r, hexec, hr, hresp⟩ := hstep n s x hs
    obtain ⟨t, hrun, ht, hresps⟩ := ih (n + 1) r hr
    refine ⟨t, (runAll_cons_of_next hexec).trans hrun, ?_, ?_⟩
    · rwa [List.length_cons, ← Nat.add_assoc, Nat.add_right_comm]
    · rw [hresps, hresp, List.append_assoc]
      rfl

/-! ## The triangle -/

/-- Sample `n` lies on the falling side of the triangle with half period `h`. -/
def falling (h n : Nat) : Bool := decide (h ≤ n % (2 * h))

theorem triangle_le (h n : Nat) : triangle h n ≤ h := by
  unfold triangle
  split <;> omega

theorem succ_mod_period {h : Nat} (hh : 1 ≤ h) (n : Nat) :
    (n + 1) % (2 * h) = if n % (2 * h) = 2 * h - 1 then 0 else n % (2 * h) + 1 := by
  have hlt : n % (2 * h) < 2 * h := Nat.mod_lt _ (by omega)
  rw [Nat.add_mod_eq_ite, Nat.mod_eq_of_lt (by omega : 1 < 2 * h)]
  split <;> split <;> omega

theorem triangle_succ {h : Nat} (hh : 1 ≤ h) (n : Nat) :
    triangle h (n + 1) = if falling h n then triangle h n - 1 else triangle h n + 1 := by
  simp only [triangle, falling, succ_mod_period hh, decide_eq_true_eq]
  split_ifs <;> omega

theorem directionAt_eq_true_iff (c h : Nat) (dir : Bool) :
    directionAt c h dir = true ↔ h ≤ c ∨ (c ≠ 0 ∧ dir = true) := by
  by_cases hc : h ≤ c
  · exact iff_of_true (if_pos hc) (.inl hc)
  · rw [directionAt, if_neg hc, or_iff_right hc]
    by_cases h0 : c = 0 <;> simp [h0]

/-- A direction settled on one sample settles to the side of the next one: it turns at the two ends only (R163). -/
theorem directionAt_triangle_succ {h : Nat} (hh : 1 ≤ h) (n : Nat) :
    directionAt (triangle h (n + 1)) h (falling h n) = falling h (n + 1) := by
  have hlt : n % (2 * h) < 2 * h := Nat.mod_lt _ (by omega)
  rw [Bool.eq_iff_iff, directionAt_eq_true_iff]
  simp only [triangle, falling, succ_mod_period hh, decide_eq_true_eq]
  split_ifs <;> omega

theorem directionAt_zero {h : Nat} (hh : 1 ≤ h) (dir : Bool) : directionAt 0 h dir = false := by
  rw [directionAt, if_neg (by omega), if_pos rfl]

/-! ## A Tremolo along the triangle -/

/-- The Tremolo `t`, of half period `h` and depth `p`, stands before sample `n` of the triangle: its counter is there, and
its direction settles to the side of the sample. -/
def AtSample (h : Nat) (p : Word) (n : Nat) (t : TremoloRegs) : Prop :=
  t.half = h ∧ t.depthPercent = p ∧ t.counter.toNat = triangle h n ∧
  directionAt t.counter.toNat h t.dir = falling h n

/-- What a Tremolo before sample `n` answers. -/
def triangleSample (m : Rounding) (h : Nat) (p : Word) (n : Nat) (x : Sample) : Int :=
  clip (quot m (x.toInt * ((100 - (p.toNat : Int)) * h + p.toNat * triangle h n)) (100 * h))

theorem atSample_zero {t : TremoloRegs} (hh : 1 ≤ t.half) (hc : t.counter = 0) :
    AtSample t.half t.depthPercent 0 t := by
  have hfall : falling t.half 0 = false := decide_eq_false (by rw [Nat.zero_mod]; omega)
  refine ⟨rfl, rfl, ?_, ?_⟩
  · rw [hc, triangle, Nat.zero_mod, if_pos (Nat.zero_le _)]
    rfl
  · rw [hc, hfall]
    exact directionAt_zero hh t.dir

theorem tremoloSample_of_atSample (m : Rounding) {h : Nat} {p : Word} {n : Nat} {t : TremoloRegs} (x : Sample)
    (hh : 1 ≤ h) (ht : AtSample h p n t) : tremoloSample m t x = triangleSample m h p n x := by
  obtain ⟨rfl, rfl, hc, -⟩ := ht
  rw [tremoloSample_of_half_ne_zero m x (by omega), hc, triangleSample]

theorem atSample_advance {h : Nat} {p : Word} {n : Nat} {t : TremoloRegs} (hh : 1 ≤ h) (ht : AtSample h p n t) :
    AtSample h p (n + 1) (tremoloAdvance t) := by
  obtain ⟨rfl, rfl, hc, hd⟩ := ht
  have h0 : t.half ≠ 0 := by omega
  have hle : t.counter.toNat ≤ t.half := hc ▸ triangle_le t.half n
  have hcounter : (tremoloAdvance t).counter.toNat = triangle t.half (n + 1) := by
    rw [tremoloAdvance_counter t h0 hle, hd, hc, triangle_succ hh]
  have hdir : (tremoloAdvance t).dir = falling t.half n := by
    rw [tremoloAdvance_of_half_ne_zero h0 hle, hd]
  refine ⟨?_, ?_, hcounter, ?_⟩
  · rw [tremoloAdvance_of_half_ne_zero h0 hle]
    rfl
  · rw [tremoloAdvance_of_half_ne_zero h0 hle]
  · rw [hcounter, hdir, directionAt_triangle_succ hh]

/-- Slot `i` of `s` holds `u` with a Tremolo before sample `n`, and the unit rounds by `m`. -/
def HoldsAtSample (m : Rounding) (i : Nat) (u : EffectUnit) (h : Nat) (p : Word) (n : Nat) (s : State) : Prop :=
  s.config.rounding = m ∧ ∃ t, Holds s i { u with effect := .tremolo t } ∧ AtSample h p n t

/-- One sample of a run moves the slot one place along the triangle (R162, R163). -/
theorem exec_process_atSample {m : Rounding} {i : Nat} {u : EffectUnit} {h : Nat} {p : Word} (ha : u.active = true)
    (hh : 1 ≤ h) (n : Nat) (s : State) (x : Sample) (hs : HoldsAtSample m i u h p n s) :
    ∃ t, exec (.process i x) s = .next t ∧ HoldsAtSample m i u h p (n + 1) t ∧
      t.responses = s.responses ++ [⟨.ok, BitVec.ofInt 32 (triangleSample m h p n x)⟩] := by
  obtain ⟨rfl, tr, hu, htr⟩ := hs
  have hexec := exec_process_tremolo x hu ha rfl
  rw [tremoloSample_of_atSample _ x hh htr] at hexec
  exact ⟨_, hexec, ⟨rfl, _, holds_putEffect hu _, atSample_advance hh htr⟩, rfl⟩

/-- Settles O50: from counter 0 the slot stands before sample 0, whatever its direction, and each sample moves it on. -/
theorem tremoloRunsTriangle : Obligations.TremoloRunsTriangle := by
  rintro s i ⟨id, active, _⟩ tr xs hu ha rfl hh hc
  obtain ⟨t, hrun, ⟨-, tr', hu', -, -, hcounter, -⟩, hresp⟩ :=
    runAll_process (exec_process_atSample ha hh) xs 0 s ⟨rfl, tr, hu, atSample_zero hh hc⟩
  rw [Nat.zero_add] at hcounter
  exact ⟨t, tr', hrun, hu', hcounter, hresp⟩

end Sys2Proof.Machine
end

section
/-! PROOFS. The statements of the Delay family (43_delay.md): the output, the feedback write and the cursor of an active
`PROCESS` (R183, R184), the length 0 (R185), the dry part (R187) and the impulse response (R188). The last two follow a
line by its contents, a function from the elements to their values, which one sample updates at the cursor. -/

namespace Sys2Proof.Machine

open Sys2Proof.Spec

/-! ## One sample -/

theorem delayMix_of_no_echo (m : Rounding) (d : DelayRegs) (x : Int) :
    delayMix m d x 0 = clip (quot m ((65536 - (d.depth.toNat : Int)) * x) 65536) := by
  rw [delayMix, mul_zero, add_zero]

theorem delayMix_of_silence (m : Rounding) (d : DelayRegs) (z : Int) :
    delayMix m d 0 z = clip (quot m (d.depth.toNat * z) 65536) := by
  rw [delayMix, mul_zero, zero_add]

theorem delayFeedback_of_silence (m : Rounding) (d : DelayRegs) (z : Int) :
    delayFeedback m d 0 z = clip (quot m (d.feedback.toNat * z) 65536) := by
  rw [delayFeedback, add_zero]

theorem delayMix_of_depth_eq_zero (m : Rounding) {d : DelayRegs} (x z : Int) (h : d.depth = 0) :
    delayMix m d x z = clip x := by
  have hexact : (65536 - ((0 : Word).toNat : Int)) * x + (0 : Word).toNat * z = 65536 * x := by simp
  rw [delayMix, h, hexact, quot_mul m x _ (by decide)]

theorem delayStep_of_cursor_lt (m : Rounding) {d : DelayRegs} (x : Sample) (h : d.cursor.toNat < d.len.toNat) :
    delayStep m d x =
      some (delayMix m d x.toInt (Memory.read d.mem d.cursor.toNat).toInt,
        { d with
          mem := Memory.write d.mem d.cursor.toNat
            (encSample (delayFeedback m d x.toInt (Memory.read d.mem d.cursor.toNat).toInt))
          cursor := cursorNext d.cursor d.len }) := by
  have h0 : d.len ≠ 0 := fun e => Nat.not_lt_zero _ (e ▸ h)
  rw [delayStep, if_neg h0, DelayRegs.memRead, if_pos h]

theorem putEffect_self {s : State} {i : Nat} {u : EffectUnit} (hu : Holds s i u) : putEffect s i u u.effect = s := by
  obtain ⟨hi, hget⟩ := List.getElem?_eq_some_iff.mp hu
  have hset : s.slots.set i (some u) = s.slots := by rw [← hget, List.set_getElem_self]
  exact congrArg (fun slots => { s with slots := slots }) hset

/-- With length 0 no element is read or written (R185). -/
theorem exec_process_delay_of_len_eq_zero {s : State} {i : Nat} {u : EffectUnit} {d : DelayRegs} (x : Sample)
    (hu : Holds s i u) (ha : u.active = true) (he : u.effect = .delay d) (h : d.len = 0) :
    exec (.process i x) s = .next (answeredOk s (BitVec.ofInt 32 (delayMix s.config.rounding d x.toInt 0))) := by
  have hrun := (Ran.delay i x u d d _ hu ha he (if_pos h)).exec_eq
  have hself : s.setEffect i u (.delay d) = s := he ▸ putEffect_self hu
  rwa [hself] at hrun

/-- Settles O38: the mix with a delayed sample of 0. -/
theorem processDelayOfLengthZero : Obligations.ProcessDelayOfLengthZero := by
  intro s i x u d hu ha he h
  rw [exec_process_delay_of_len_eq_zero x hu ha he h, delayMix_of_no_echo]

theorem cursorNext_toNat {cursor len : Word} (h : cursor.toNat < len.toNat) :
    (cursorNext cursor len).toNat = if cursor.toNat + 1 ≥ len.toNat then 0 else cursor.toNat + 1 := by
  have := len.isLt
  rw [cursorNext, apply_ite BitVec.toNat, word_succ _ (by omega)]
  rfl

/-- The feedback write is clipped, so the element holds it exactly. -/
theorem encSample_delayFeedback_toInt (m : Rounding) (d : DelayRegs) (x z : Int) :
    (encSample (delayFeedback m d x z)).toInt = delayFeedback m d x z := by
  obtain ⟨hlo, hhi⟩ := clip_range (quot m (d.feedback.toNat * (z + x)) 65536)
  exact encSample_toInt _ (by rw [delayFeedback]; omega) hhi

/-- Settles O37: the run of a Delay whose cursor names an element, with the read after the write of that element. -/
theorem processDelayEchoes : Obligations.ProcessDelayEchoes := by
  intro s i x u d hu ha he hc hwf q c z
  refine ⟨_, (Ran.delay i x u d _ _ hu ha he (delayStep_of_cursor_lt _ x hc)).exec_eq, rfl, rfl, rfl, rfl, rfl,
    cursorNext_toNat hc, ?_, Memory.wf_write _ _ _ hwf, fun k hk => Memory.read_write_other _ _ _ _ hk⟩
  rw [Memory.read_write_same _ _ _ hwf, encSample_delayFeedback_toInt, delayFeedback]

/-! ## The contents of a line -/

/-- Before sample `n` of a run, slot `i` of `s` holds `u` with the parameters and the length of the Delay `d`; the cursor
has gone round the line `n` places, and the elements hold `line`. The unit rounds by `m`. -/
def HoldsLine (m : Rounding) (i : Nat) (u : EffectUnit) (d : DelayRegs) (n : Nat) (line : Nat → Int)
    (s : State) : Prop :=
  s.config.rounding = m ∧ ∃ cursor mem,
    Holds s i { u with effect := .delay { d with cursor := cursor, mem := mem } } ∧
    cursor.toNat = n % d.len.toNat ∧ Memory.wf mem = true ∧ ∀ k, (Memory.read mem k).toInt = line k

theorem holdsLine_of_zero_fill {s : State} {i : Nat} {u : EffectUnit} {d : DelayRegs} (hu : Holds s i u)
    (he : u.effect = .delay d) (hc : d.cursor = 0) (hm : d.mem = []) :
    HoldsLine s.config.rounding i u d 0 (fun _ => 0) s := by
  refine ⟨rfl, 0, [], ?_, (Nat.zero_mod _).symm, rfl, fun _ => rfl⟩
  rwa [← hc, ← hm, ← he]

/-- The cursor goes round the line (R184). -/
theorem cursorNext_eq_succ_mod {cursor len : Word} {n : Nat} (hlen : 1 ≤ len.toNat)
    (h : cursor.toNat = n % len.toNat) :
    (cursorNext cursor len).toNat = (n + 1) % len.toNat := by
  have hlt : n % len.toNat < len.toNat := Nat.mod_lt _ hlen
  rw [cursorNext_toNat (h ▸ hlt), h]
  split
  · next hend => rw [← Nat.mod_add_mod, le_antisymm hlt hend, Nat.mod_self]
  · next hend => rw [← Nat.mod_add_mod, Nat.mod_eq_of_lt (not_le.mp hend)]

/-- A write updates the contents at one element. -/
theorem read_write_toInt {mem : Memory} {line : Nat → Int} {k : Nat} {v : Sample} (hwf : Memory.wf mem = true)
    (hline : ∀ j, (Memory.read mem j).toInt = line j) (j : Nat) :
    (Memory.read (Memory.write mem k v) j).toInt = Function.update line k v.toInt j := by
  by_cases hj : j = k
  · rw [hj, Memory.read_write_same _ _ _ hwf, Function.update_self]
  · rw [Memory.read_write_other _ _ _ _ hj, Function.update_of_ne hj, hline]

/-- One sample answers the mix with the element at the cursor, updates that element and moves on (R183, R184). -/
theorem exec_process_holdsLine {m : Rounding} {i : Nat} {u : EffectUnit} {d : DelayRegs} {n : Nat} {line : Nat → Int}
    {s : State} (x : Sample) (ha : u.active = true) (hlen : 1 ≤ d.len.toNat) (hs : HoldsLine m i u d n line s) :
    ∃ t, exec (.process i x) s = .next t ∧
      HoldsLine m i u d (n + 1) (Function.update line (n % d.len.toNat)
        (delayFeedback m d x.toInt (line (n % d.len.toNat)))) t ∧
      t.responses = s.responses ++ [⟨.ok, BitVec.ofInt 32 (delayMix m d x.toInt (line (n % d.len.toNat)))⟩] := by
  obtain ⟨rfl, cursor, mem, hu, hc, hwf, hline⟩ := hs
  have hlt : cursor.toNat < d.len.toNat := hc ▸ Nat.mod_lt _ hlen
  refine ⟨_, (Ran.delay i x _ _ _ _ hu ha rfl (delayStep_of_cursor_lt _ x hlt)).exec_eq,
    ⟨rfl, _, _, holds_putEffect hu _, cursorNext_eq_succ_mod hlen hc, Memory.wf_write _ _ _ hwf, fun k => ?_⟩, ?_⟩
  · rw [read_write_toInt hwf hline, encSample_delayFeedback_toInt, hline, ← hc]
    rfl
  · rw [← hc, ← hline]
    rfl

/-- As `runAll_process`, where the step from place `n` is asked for the `n`-th sample of the run alone. -/
theorem runAll_process_of_getElem {i : Nat} (xs : List Sample) {place : Nat → State → Prop}
    {out : Nat → Sample → Word}
    (hstep : ∀ n x s, xs[n]? = some x → place n s → ∃ t, exec (.process i x) s = .next t ∧ place (n + 1) t ∧
      t.responses = s.responses ++ [⟨.ok, out n x⟩])
    {s : State} (hs : place 0 s) :
    ∃ t, runAll (xs.map (.process i)) s = some t ∧
      t.responses = s.responses ++ xs.zipIdx.map fun xn => ⟨.ok, out xn.2 xn.1⟩ := by
  induction xs generalizing place out s with
  | nil => exact ⟨s, rfl, (List.append_nil _).symm⟩
  | cons x xs ih =>
    obtain ⟨r, hexec, hr, hresp⟩ := hstep 0 x s rfl hs
    obtain ⟨t, hrun, hresps⟩ := ih (fun n => hstep (n + 1)) hr
    refine ⟨t, (runAll_cons_of_next hexec).trans hrun, ?_⟩
    rw [hresps, hresp, List.append_assoc, List.zipIdx_cons, List.zipIdx_succ, List.map_cons, List.map_map]
    rfl

/-! ## The dry part -/

/-- Before sample `n` of the first round: every element the round has yet to read holds 0. -/
def HoldsUnreadZeros (m : Rounding) (i : Nat) (u : EffectUnit) (d : DelayRegs) (n : Nat) (s : State) : Prop :=
  ∃ line : Nat → Int, (∀ k, n ≤ k → line k = 0) ∧ HoldsLine m i u d n line s

theorem exec_process_holdsUnreadZeros {m : Rounding} {i : Nat} {u : EffectUnit} {d : DelayRegs} {n : Nat} {s : State}
    (x : Sample) (ha : u.active = true) (hn : n < d.len.toNat) (hs : HoldsUnreadZeros m i u d n s) :
    ∃ t, exec (.process i x) s = .next t ∧ HoldsUnreadZeros m i u d (n + 1) t ∧
      t.responses = s.responses ++ [⟨.ok, BitVec.ofInt 32 (delayMix m d x.toInt 0)⟩] := by
  obtain ⟨line, hzero, hline⟩ := hs
  obtain ⟨t, hexec, ht, hresp⟩ := exec_process_holdsLine x ha (by omega) hline
  rw [Nat.mod_eq_of_lt hn] at ht hresp
  refine ⟨t, hexec, ⟨_, fun k hk => ?_, ht⟩, hresp.trans ?_⟩
  · rw [Function.update_of_ne (by omega), hzero k (by omega)]
  · rw [hzero n le_rfl]

/-- Settles O51: the first round reads zeros only, and with depth 0 it does not matter what is read. -/
theorem delayIsDryAtFirst : Obligations.DelayIsDryAtFirst := by
  constructor
  · intro s i u d xs hu ha he hc hm hlen
    obtain ⟨t, hrun, hresp⟩ := runAll_process_of_getElem xs
      (out := fun _ x => BitVec.ofInt 32 (delayMix s.config.rounding d x.toInt 0))
      (fun n x r hx hr =>
        exec_process_holdsUnreadZeros x ha ((List.getElem?_eq_some_iff.mp hx).1.trans_le hlen) hr)
      ⟨_, fun _ _ => rfl, holdsLine_of_zero_fill hu he hc hm⟩
    refine ⟨t, hrun, ?_⟩
    simp only [← delayMix_of_no_echo]
    rw [hresp]
    conv_rhs => rw [← List.zipIdx_map_fst 0 xs, List.map_map]
    rfl
  · intro s i u d x hu ha he hok hd
    obtain ⟨-, -, -, -, hc | ⟨-, h0⟩, -⟩ := hok
    · refine ⟨_, (Ran.delay i x u d _ _ hu ha he (delayStep_of_cursor_lt _ x hc)).exec_eq, ?_⟩
      rw [delayMix_of_depth_eq_zero _ _ _ hd]
      rfl
    · refine ⟨_, exec_process_delay_of_len_eq_zero x hu ha he (BitVec.eq_of_toNat_eq h0), ?_⟩
      rw [delayMix_of_depth_eq_zero _ _ _ hd]
      rfl

/-! ## The impulse response -/

theorem clip_zero : clip 0 = 0 := rfl

/-- The input of the impulse response. -/
def impulse (x0 : Sample) : Nat → Sample
  | 0 => x0
  | _ + 1 => 0

theorem impulse_succ_toInt (x0 : Sample) (n : Nat) : (impulse x0 (n + 1)).toInt = 0 := rfl

/-- The contents of the line before each sample of the impulse response: element 0 holds the echo that the latest sample
at a multiple of `LEN` has stored there, and every other element holds 0 (R188). -/
def impulseLine (m : Rounding) (d : DelayRegs) (x0 : Int) : Nat → Nat → Int
  | 0, _ => 0
  | n + 1, k => if k = 0 then echo m d.feedback x0 (n / d.len.toNat) else 0

theorem eq_impulse_of_getElem? {x0 x : Sample} {n j : Nat} (h : (x0 :: List.replicate n 0)[j]? = some x) :
    x = impulse x0 j := by
  cases j with
  | zero => exact (Option.some.inj h).symm
  | succ j => exact List.eq_of_mem_replicate (List.mem_of_getElem? h)

theorem delayMix_impulse (m : Rounding) (d : DelayRegs) (x0 : Sample) (n : Nat) :
    delayMix m d (impulse x0 n).toInt (impulseLine m d x0.toInt n (n % d.len.toNat)) =
      impulseOut m d x0.toInt d.len.toNat n := by
  cases n with
  | zero => rw [impulse, impulseLine, delayMix_of_no_echo, impulseOut, if_pos rfl]
  | succ n =>
    rw [impulse_succ_toInt, impulseLine, delayMix_of_silence, impulseOut, if_neg (Nat.succ_ne_zero n)]
    by_cases h : (n + 1) % d.len.toNat = 0
    · rw [if_pos h, if_pos h, Nat.succ_div_of_mod_eq_zero h, Nat.add_sub_cancel]
    · rw [if_neg h, if_neg h, mul_zero, quot_zero, clip_zero]

theorem update_impulseLine (m : Rounding) (d : DelayRegs) (x0 : Sample) (n : Nat) :
    Function.update (impulseLine m d x0.toInt n) (n % d.len.toNat)
        (delayFeedback m d (impulse x0 n).toInt (impulseLine m d x0.toInt n (n % d.len.toNat))) =
      impulseLine m d x0.toInt (n + 1) := by
  funext k
  rw [Function.update_apply]
  cases n with
  | zero => simp only [impulse, impulseLine, Nat.zero_mod, Nat.zero_div, echo, delayFeedback, zero_add]
  | succ n =>
    simp only [impulse_succ_toInt, impulseLine, delayFeedback_of_silence]
    by_cases h : (n + 1) % d.len.toNat = 0
    · rw [if_pos h, h, Nat.succ_div_of_mod_eq_zero h, echo]
      split <;> rfl
    · rw [if_neg h, mul_zero, quot_zero, clip_zero, Nat.succ_div_of_mod_ne_zero h]
      exact ite_eq_right_iff.mpr fun hk => (if_neg (hk ▸ h)).symm

/-- One sample of the impulse response (R188). -/
theorem exec_process_impulse {m : Rounding} {i : Nat} {u : EffectUnit} {d : DelayRegs} {x0 : Sample} {n : Nat}
    {s : State} (ha : u.active = true) (hlen : 1 ≤ d.len.toNat)
    (hs : HoldsLine m i u d n (impulseLine m d x0.toInt n) s) :
    ∃ t, exec (.process i (impulse x0 n)) s = .next t ∧
      HoldsLine m i u d (n + 1) (impulseLine m d x0.toInt (n + 1)) t ∧
      t.responses = s.responses ++ [⟨.ok, BitVec.ofInt 32 (impulseOut m d x0.toInt d.len.toNat n)⟩] := by
  rw [← update_impulseLine, ← delayMix_impulse]
  exact exec_process_holdsLine _ ha hlen hs

theorem echo_of_full_feedback (m : Rounding) {feedback : Word} (x0 : Int) (h : feedback.toNat = 65536) (k : Nat) :
    echo m feedback x0 k = clip x0 := by
  have hexact (v : Int) : quot m (feedback.toNat * v) 65536 = v := by
    rw [h]
    exact quot_mul m v _ (by decide)
  induction k with
  | zero => rw [echo, hexact]
  | succ k ih =>
    obtain ⟨hlo, hhi⟩ := clip_range x0
    rw [echo, hexact, ih, clip_eq_self _ hlo hhi]

/-- Settles O52: each sample of the run takes the contents of the line from `impulseLine n` to `impulseLine (n + 1)`. -/
theorem delayImpulseResponse : Obligations.DelayImpulseResponse := by
  intro s i n u d x0 hu ha he hc hm hlen
  refine ⟨?_, echo_of_full_feedback _ _⟩
  obtain ⟨t, hrun, hresp⟩ := runAll_process_of_getElem (x0 :: List.replicate n 0)
    (fun j x r hx hr => eq_impulse_of_getElem? hx ▸ exec_process_impulse ha hlen hr)
    (holdsLine_of_zero_fill hu he hc hm)
  have hindex : (x0 :: List.replicate n 0).zipIdx.map Prod.snd = List.range (n + 1) := by
    rw [List.zipIdx_map_snd, List.length_cons, List.length_replicate, List.range_eq_range']
  rw [List.map_cons, List.map_replicate] at hrun
  refine ⟨t, hrun, ?_⟩
  rw [hresp, ← hindex, List.map_map]
  rfl

end Sys2Proof.Machine
end

section
/-! PROOFS. The statements of the wrapper family (44_wrappers.md): an active `PROCESS` of an ADSRGain (R201) and of a
PitchShift (R203). Each is the case of `Ran` for its kind, for any answer of the collaborator. -/

namespace Sys2Proof.Machine

open Sys2Proof.Spec

/-- Settles O39: `adsrSample` is the formula of R201, and `envLevel` the clamp of R200. -/
theorem processAdsrScalesByDrawnLevel : Obligations.ProcessAdsrScalesByDrawnLevel :=
  fun _ i x u b hu ha he => (Ran.adsr i x u b hu ha he).exec_eq

/-- The trace gets the draw behind the events emitted before it (R206). -/
theorem draw_emit (s : State) (evs : List Event) (ev : Event) :
    (s.emit evs).draw ev = { s with events := s.events ++ (evs ++ [ev]), draws := s.draws + 1 } := by
  rw [State.draw, State.emit, List.append_assoc]

/-- Settles O40: one write and one draw, in this order. -/
theorem processPitchAnswersDrawnSample : Obligations.ProcessPitchAnswersDrawnSample := by
  intro s i x u w hu ha he y
  rw [(Ran.pitch i x u w hu ha he).exec_eq, draw_emit]
  rfl

end Sys2Proof.Machine
end

section
/-! PROOFS. The statements of the compressor family (45_compressor.md): the integer form of the target gain against the
rational curves (R212 to R221, R232), the unity gains (R228, R281), the sample of an active `PROCESS` (R226) and the
direction of its gain step (R227). Both curves bend the level above a bound by a ratio: `bentGain` is that bend in the
machine's integers, `bentOut` over the rationals, and the case equations of the four curves are stated in them. -/

namespace Sys2Proof.Machine

open Sys2Proof.Spec

/-! ## The target gain of a curve's output -/

/-- `q` of R232 is the conversion of R220 for the quotient of its arguments. -/
theorem gainQuot_eq_floor (c : Config) (num : Int) {den : Int} (h : 0 < den) :
    gainQuot c num den = ⌊max (min ((num : ℚ) / den) 1) 0 * gainOne c⌋.toNat := by
  have hden : (0 : ℚ) < den := Int.cast_pos.mpr h
  unfold gainQuot
  split
  next hge =>
    have hone : (1 : ℚ) ≤ num / den := (one_le_div hden).mpr (Int.cast_le.mpr hge)
    rw [min_eq_right hone, max_eq_left zero_le_one, one_mul, Int.floor_natCast, Int.toNat_natCast]
  next hlt =>
    split
    next hneg =>
      have hquot : (num : ℚ) / den ≤ 0 := div_nonpos_of_nonpos_of_nonneg (Int.cast_nonpos.mpr hneg) hden.le
      rw [max_eq_right (min_le_of_left_le hquot), zero_mul, Int.floor_zero, Int.toNat_zero]
    next hpos =>
      obtain ⟨n, rfl⟩ := Int.eq_ofNat_of_zero_le (by omega : 0 ≤ num)
      obtain ⟨d, rfl⟩ := Int.eq_ofNat_of_zero_le h.le
      have hle : ((n : Int) : ℚ) / (d : Int) ≤ 1 := (div_le_one hden).mpr (Int.cast_le.mpr (by omega))
      have hnonneg : (0 : ℚ) ≤ ((n : Int) : ℚ) / (d : Int) := div_nonneg (Int.cast_nonneg (by omega)) hden.le
      rw [min_eq_left hle, max_eq_left hnonneg, Int.floor_toNat, Int.toNat_natCast, Int.toNat_natCast,
        ← Nat.floor_div_eq_div (K := ℚ)]
      push_cast
      rw [div_mul_eq_mul_div]

theorem inLevel_pos {a : Nat} (ha : a ≠ 0) : 0 < inLevel a :=
  div_pos (Nat.cast_pos.mpr (Nat.pos_of_ne_zero ha)) (by norm_num)

theorem targetOfOut_inLevel (c : Config) {a : Nat} (ha : a ≠ 0) : targetOfOut c a (some (inLevel a)) = gainOne c := by
  rw [targetOfOut, div_self (inLevel_pos ha).ne', min_self, max_eq_left zero_le_one, one_mul, Int.floor_natCast,
    Int.toNat_natCast]

/-! ## The bend of the level above a bound -/

/-- The output for the level `a` above the bound `b`, reduced by the ratio `ρ` (R214, R219); `none` is the division by
zero of R221. -/
def bentOut (b ρ : ℚ) (a : Nat) : Option ℚ := if ρ = 0 then none else some (b + (inLevel a - b) / ρ)

/-- The target gain of that output in integers, for the bound `n / d` and the ratio `E / F` (R232). -/
def bentGain (c : Config) (n d a : Nat) (E F : Int) : Nat :=
  if E = 0 then gainOne c else gainQuot c (32767 * n * E + F * (d * a - 32767 * n)) (d * a * E)

theorem targetOfOut_bentOut (c : Config) (n : Nat) {d a : Nat} {E F : Int} (hd : 0 < d) (ha : a ≠ 0) (hE : 0 ≤ E)
    (hF : 0 < F) : targetOfOut c a (bentOut ((n : ℚ) / d) ((E : ℚ) / F) a) = bentGain c n d a E F := by
  have hF' : (F : ℚ) ≠ 0 := Int.cast_ne_zero.mpr hF.ne'
  rcases eq_or_ne E 0 with rfl | h0
  · rw [bentGain, if_pos rfl, bentOut, Int.cast_zero, zero_div, if_pos rfl, targetOfOut]
  · have hE' : (E : ℚ) ≠ 0 := Int.cast_ne_zero.mpr h0
    have ha' : (a : ℚ) ≠ 0 := Nat.cast_ne_zero.mpr ha
    have hd' : (d : ℚ) ≠ 0 := Nat.cast_ne_zero.mpr hd.ne'
    have hden : 0 < (d : Int) * a * E := mul_pos (by positivity) (by omega)
    have hratio : ((n : ℚ) / d + (inLevel a - n / d) / (E / F)) / inLevel a =
        ((32767 * n * E + F * (d * a - 32767 * n) : Int) : ℚ) / ((d * a * E : Int) : ℚ) := by
      unfold inLevel
      push_cast
      field_simp
    rw [bentGain, if_neg h0, bentOut, if_neg (div_ne_zero hE' hF'), targetOfOut, hratio, gainQuot_eq_floor c _ hden]

/-- A ratio of at most 1.0 bends no level down (R281). -/
theorem bentGain_of_le (c : Config) {n d a : Nat} {E F : Int} (hE : E ≤ F) (ha : 32767 * n ≤ d * a) :
    bentGain c n d a E F = gainOne c := by
  unfold bentGain gainQuot
  split
  · rfl
  · have ha' : 32767 * (n : Int) ≤ d * a := by exact_mod_cast ha
    have hkept : 0 ≤ (F - E) * ((d : Int) * a - 32767 * n) := mul_nonneg (sub_nonneg.mpr hE) (sub_nonneg.mpr ha')
    exact if_pos (by linarith)

/-! ## The bounds and the index, over the rationals and in integers -/

theorem inLevel_lt_div_iff (a n : Nat) {d : Nat} (hd : 0 < d) : inLevel a < (n : ℚ) / d ↔ d * a < 32767 * n := by
  rw [inLevel, div_lt_div_iff₀ (by norm_num) (Nat.cast_pos.mpr hd), mul_comm d a, mul_comm 32767 n]
  exact_mod_cast Iff.rfl

theorem div_lt_inLevel_iff (a n : Nat) {d : Nat} (hd : 0 < d) : (n : ℚ) / d < inLevel a ↔ 32767 * n < d * a := by
  rw [inLevel, div_lt_div_iff₀ (Nat.cast_pos.mpr hd) (by norm_num), mul_comm d a, mul_comm 32767 n]
  exact_mod_cast Iff.rfl

theorem lowerKnee_eq (tp : Nat) : lowerKnee tp = (kneeLo tp : ℚ) / (100 : Nat) := by
  unfold lowerKnee kneeLo
  rcases le_total tp 10 with h | h
  · have h' : (tp : ℚ) ≤ 10 := by exact_mod_cast h
    rw [Nat.sub_eq_zero_of_le h, max_eq_right (by linarith), Nat.cast_zero, zero_div]
  · have h' : (10 : ℚ) ≤ tp := by exact_mod_cast h
    rw [max_eq_left (by linarith)]
    push_cast [h]
    ring

theorem upperKnee_eq (tp : Nat) : upperKnee tp = (kneeHi tp : ℚ) / (100 : Nat) := by
  unfold upperKnee kneeHi
  push_cast
  ring

theorem kneeLo_lt_kneeHi (tp : Nat) : kneeLo tp < kneeHi tp := by unfold kneeLo kneeHi; omega

theorem inLevel_lt_lowerKnee_iff (tp a : Nat) : inLevel a < lowerKnee tp ↔ 100 * a < 32767 * kneeLo tp := by
  rw [lowerKnee_eq, inLevel_lt_div_iff a _ (by decide)]

theorem upperKnee_lt_inLevel_iff (tp a : Nat) : upperKnee tp < inLevel a ↔ 32767 * kneeHi tp < 100 * a := by
  rw [upperKnee_eq, div_lt_inLevel_iff a _ (by decide)]

theorem kneeIndexQ_eq {tp a : Nat} (h : 32767 * kneeLo tp ≤ 100 * a) : kneeIndexQ tp a = kneeIndex tp a := by
  have hw : ((kneeHi tp : ℚ) - kneeLo tp) ≠ 0 := sub_ne_zero.mpr (Nat.cast_injective.ne (kneeLo_lt_kneeHi tp).ne')
  unfold kneeIndexQ kneeIndex
  rw [Int.floor_toNat, ← Nat.floor_div_eq_div (K := ℚ), lowerKnee_eq, upperKnee_eq, inLevel]
  congr 1
  push_cast [h, (kneeLo_lt_kneeHi tp).le]
  field_simp

theorem effRatioQ_eq (r : Nat) (k : Word) :
    effRatioQ ((r : ℚ) / 65536) k = (effRatio r k : ℚ) / (4294967296 : Int) := by
  unfold effRatioQ effRatio ufx
  push_cast
  ring

/-- The table never exceeds 1.0, so the effective ratio is not negative. -/
theorem effRatio_nonneg (r : Nat) {k : Word} (hk : k.toNat ≤ 65536) : 0 ≤ effRatio r k := by
  unfold effRatio
  nlinarith

theorem effRatio_le (k : Word) {r : Nat} (hr : r ≤ 65536) : effRatio r k ≤ 4294967296 := by
  have hpart : ((r : Int) - 65536) * k.toNat ≤ 0 := mul_nonpos_of_nonpos_of_nonneg (by omega) (by omega)
  rw [effRatio]
  omega

/-! ## The soft-knee curve by regions -/

section
variable (c : Config) (r : CompRegs) {a : Nat}

theorem kneeTarget_of_below (h : 100 * a < 32767 * kneeLo r.thresholdPercent.toNat) :
    kneeTarget c r a = some (gainOne c) := by
  simp [kneeTarget, h]

theorem kneeTarget_of_above (ha : a ≠ 0) (h : 32767 * kneeHi r.thresholdPercent.toNat < 100 * a) :
    kneeTarget c r a = some (bentGain c (kneeHi r.thresholdPercent.toNat) 100 a r.ratio.toNat 65536) := by
  have hlo := kneeLo_lt_kneeHi r.thresholdPercent.toNat
  unfold kneeTarget bentGain
  rw [if_neg ha, if_neg (by omega), if_pos h, ← apply_ite some]
  simp only [Int.natCast_eq_zero]
  congr 3 <;> push_cast <;> ring

theorem kneeTarget_of_knee {k : Word} (ha : a ≠ 0) (hlo : 32767 * kneeLo r.thresholdPercent.toNat ≤ 100 * a)
    (hhi : 100 * a ≤ 32767 * kneeHi r.thresholdPercent.toNat)
    (hk : c.kneeS[kneeIndex r.thresholdPercent.toNat a]? = some k) :
    kneeTarget c r a =
      some (bentGain c (kneeLo r.thresholdPercent.toNat) 100 a (effRatio r.ratio.toNat k) 4294967296) := by
  unfold kneeTarget bentGain
  rw [if_neg ha, if_neg (by omega), if_neg (by omega), hk, apply_ite some]
  rfl

theorem kneeTargetQ_of_below (ha : a ≠ 0) (h : 100 * a < 32767 * kneeLo r.thresholdPercent.toNat) :
    kneeTargetQ c r a = some (gainOne c) := by
  rw [kneeTargetQ, if_neg ha, softOut, if_pos ((inLevel_lt_lowerKnee_iff _ a).mpr h), Option.map_some,
    targetOfOut_inLevel c ha]

theorem kneeTargetQ_of_above (ha : a ≠ 0) (h : 32767 * kneeHi r.thresholdPercent.toNat < 100 * a) :
    kneeTargetQ c r a = some (bentGain c (kneeHi r.thresholdPercent.toNat) 100 a r.ratio.toNat 65536) := by
  have hlo := kneeLo_lt_kneeHi r.thresholdPercent.toNat
  rw [kneeTargetQ, if_neg ha, softOut, if_neg (by rw [inLevel_lt_lowerKnee_iff]; omega),
    if_pos ((upperKnee_lt_inLevel_iff _ a).mpr h), Option.map_some, ← bentOut, upperKnee_eq,
    ← targetOfOut_bentOut c _ (by decide) ha (by omega) (by decide)]
  rfl

theorem kneeTargetQ_of_knee {k : Word} (ha : a ≠ 0) (hlo : 32767 * kneeLo r.thresholdPercent.toNat ≤ 100 * a)
    (hhi : 100 * a ≤ 32767 * kneeHi r.thresholdPercent.toNat)
    (hk : c.kneeS[kneeIndex r.thresholdPercent.toNat a]? = some k) (hmax : k.toNat ≤ 65536) :
    kneeTargetQ c r a =
      some (bentGain c (kneeLo r.thresholdPercent.toNat) 100 a (effRatio r.ratio.toNat k) 4294967296) := by
  rw [kneeTargetQ, if_neg ha, softOut, if_neg (by rw [inLevel_lt_lowerKnee_iff]; omega),
    if_neg (by rw [gt_iff_lt, upperKnee_lt_inLevel_iff]; omega), kneeIndexQ_eq hlo, hk, Option.map_some, ← bentOut, ufx,
    effRatioQ_eq, lowerKnee_eq, targetOfOut_bentOut c _ (by decide) ha (effRatio_nonneg _ hmax) (by decide)]

end

/-- The entry of `KNEE_S` a level inside the knee reads: it exists, and is at most 1.0. -/
theorem exists_kneeS_entry {c : Config} {tp a : Nat} (hc : ConfigOk c) (hlo : 32767 * kneeLo tp ≤ 100 * a)
    (hhi : 100 * a ≤ 32767 * kneeHi tp) : ∃ k, c.kneeS[kneeIndex tp a]? = some k ∧ k.toNat ≤ 65536 := by
  obtain ⟨-, hlen, hmax, -⟩ := hc
  have hidx := kneeIndex_le tp a hlo hhi
  have hk := List.getElem?_eq_getElem (l := c.kneeS) (i := kneeIndex tp a) (by omega)
  exact ⟨_, hk, hmax _ (List.mem_of_getElem? hk)⟩

theorem kneeTarget_eq_kneeTargetQ {c : Config} (r : CompRegs) (a : Nat) (hc : ConfigOk c) :
    kneeTarget c r a = kneeTargetQ c r a := by
  rcases eq_or_ne a 0 with rfl | ha
  · rfl
  · rcases Nat.lt_or_ge (100 * a) (32767 * kneeLo r.thresholdPercent.toNat) with hlo | hlo
    · rw [kneeTarget_of_below c r hlo, kneeTargetQ_of_below c r ha hlo]
    · rcases Nat.lt_or_ge (32767 * kneeHi r.thresholdPercent.toNat) (100 * a) with hhi | hhi
      · rw [kneeTarget_of_above c r ha hhi, kneeTargetQ_of_above c r ha hhi]
      · obtain ⟨k, hk, hmax⟩ := exists_kneeS_entry hc hlo hhi
        rw [kneeTarget_of_knee c r ha hlo hhi hk, kneeTargetQ_of_knee c r ha hlo hhi hk hmax]

/-! ## The log-threshold curve by regions -/

theorem logEntry_eq_logThreshold (c : Config) (tp : Nat) : logEntry c tp = logThreshold c tp := by
  cases tp <;> rfl

section
variable (c : Config) (r : CompRegs) {a : Nat}

theorem logTarget_of_missing (ha : a ≠ 0) (hw : logThreshold c r.thresholdPercent.toNat = none) :
    logTarget c r a = none := by
  rw [logTarget, if_neg ha, hw]

theorem logTarget_of_below {w : Word} (hw : logThreshold c r.thresholdPercent.toNat = some w)
    (h : 65536 * a < 32767 * w.toNat) : logTarget c r a = some (gainOne c) := by
  simp [logTarget, hw, h]

theorem logTarget_of_above {w : Word} (ha : a ≠ 0) (hw : logThreshold c r.thresholdPercent.toNat = some w)
    (h : 32767 * w.toNat ≤ 65536 * a) :
    logTarget c r a = some (bentGain c w.toNat 65536 a r.ratio.toNat 65536) := by
  unfold logTarget bentGain
  rw [if_neg ha, hw]
  simp only [if_neg (Nat.not_lt.mpr h), ← apply_ite some, Int.natCast_eq_zero]
  congr 3 <;> push_cast <;> ring

theorem logTargetQ_of_missing (ha : a ≠ 0) (hw : logThreshold c r.thresholdPercent.toNat = none) :
    logTargetQ c r a = none := by
  rw [logTargetQ, if_neg ha, logOut, logEntry_eq_logThreshold, hw]
  rfl

theorem logTargetQ_of_below {w : Word} (ha : a ≠ 0) (hw : logThreshold c r.thresholdPercent.toNat = some w)
    (h : 65536 * a < 32767 * w.toNat) : logTargetQ c r a = some (gainOne c) := by
  have hlt : inLevel a < ufx w := (inLevel_lt_div_iff a _ (by decide)).mpr h
  rw [logTargetQ, if_neg ha, logOut, logEntry_eq_logThreshold, hw]
  simp only [if_pos hlt, Option.map_some, targetOfOut_inLevel c ha]

theorem logTargetQ_of_above {w : Word} (ha : a ≠ 0) (hw : logThreshold c r.thresholdPercent.toNat = some w)
    (h : 32767 * w.toNat ≤ 65536 * a) :
    logTargetQ c r a = some (bentGain c w.toNat 65536 a r.ratio.toNat 65536) := by
  have hge : ¬ inLevel a < ufx w := fun hlt => Nat.not_lt.mpr h ((inLevel_lt_div_iff a _ (by decide)).mp hlt)
  rw [logTargetQ, if_neg ha, logOut, logEntry_eq_logThreshold, hw]
  simp only [if_neg hge, Option.map_some]
  rw [← bentOut, ← targetOfOut_bentOut c _ (by decide) ha (by omega) (by decide)]
  rfl

end

theorem logTarget_eq_logTargetQ (c : Config) (r : CompRegs) (a : Nat) : logTarget c r a = logTargetQ c r a := by
  rcases eq_or_ne a 0 with rfl | ha
  · rfl
  · rcases hw : logThreshold c r.thresholdPercent.toNat with _ | w
    · rw [logTarget_of_missing c r ha hw, logTargetQ_of_missing c r ha hw]
    · rcases Nat.lt_or_ge (65536 * a) (32767 * w.toNat) with h | h
      · rw [logTarget_of_below c r hw h, logTargetQ_of_below c r ha hw h]
      · rw [logTarget_of_above c r ha hw h, logTargetQ_of_above c r ha hw h]

/-- Settles O45: region by region, both curves of a kind are the same bend. -/
theorem integerGainFormIsTheCurve : Obligations.IntegerGainFormIsTheCurve :=
  fun c r a hc => ⟨kneeTarget_eq_kneeTargetQ r a hc, logTarget_eq_logTargetQ c r a⟩

/-! ## Unity gain -/

theorem kneeTarget_of_ratio_le {c : Config} {r : CompRegs} (a : Nat) (hc : ConfigOk c) (hr : r.ratio.toNat ≤ 65536) :
    kneeTarget c r a = some (gainOne c) := by
  rcases eq_or_ne a 0 with rfl | ha
  · rfl
  · rcases Nat.lt_or_ge (100 * a) (32767 * kneeLo r.thresholdPercent.toNat) with hlo | hlo
    · exact kneeTarget_of_below c r hlo
    · rcases Nat.lt_or_ge (32767 * kneeHi r.thresholdPercent.toNat) (100 * a) with hhi | hhi
      · rw [kneeTarget_of_above c r ha hhi, bentGain_of_le c (by omega) hhi.le]
      · obtain ⟨k, hk, -⟩ := exists_kneeS_entry hc hlo hhi
        rw [kneeTarget_of_knee c r ha hlo hhi hk, bentGain_of_le c (effRatio_le k hr) hlo]

theorem logTarget_of_ratio_le {c : Config} {r : CompRegs} {a : Nat} {w : Word}
    (hw : logThreshold c r.thresholdPercent.toNat = some w) (hr : r.ratio.toNat ≤ 65536) :
    logTarget c r a = some (gainOne c) := by
  rcases eq_or_ne a 0 with rfl | ha
  · rfl
  · rcases Nat.lt_or_ge (65536 * a) (32767 * w.toNat) with h | h
    · exact logTarget_of_below c r hw h
    · rw [logTarget_of_above c r ha hw h, bentGain_of_le c (by omega) h]

theorem exists_logThreshold {c : Config} {tp : Nat} (hc : ConfigOk c) (h1 : 1 ≤ tp) (h99 : tp ≤ 99) :
    ∃ w, logThreshold c tp = some w := by
  obtain ⟨-, -, -, -, -, -, hlen, -⟩ := hc
  rw [logThreshold, if_neg (by omega)]
  exact ⟨_, List.getElem?_eq_getElem (by omega)⟩

/-- Settles O46: no region of either curve bends a level down by a ratio of at most 1.0. -/
theorem ratioUpToOneHoldsUnityGain : Obligations.RatioUpToOneHoldsUnityGain := by
  intro c r a hc hr
  refine ⟨kneeTarget_of_ratio_le a hc hr, fun h1 h99 => ?_⟩
  obtain ⟨w, hw⟩ := exists_logThreshold hc h1 h99
  exact logTarget_of_ratio_le hw hr

/-- At table index 0 the effective ratio is 1.0, whatever the ratio. -/
theorem kneeTarget_of_kneeIndex_eq_zero {c : Config} (r : CompRegs) {a : Nat} (hc : ConfigOk c)
    (hlo : 32767 * kneeLo r.thresholdPercent.toNat ≤ 100 * a)
    (hhi : 100 * a ≤ 32767 * kneeHi r.thresholdPercent.toNat) (hidx : kneeIndex r.thresholdPercent.toNat a = 0) :
    kneeTarget c r a = some (gainOne c) := by
  rcases eq_or_ne a 0 with rfl | ha
  · rfl
  · obtain ⟨-, -, -, -, hfirst, -⟩ := hc
    have hone : effRatio r.ratio.toNat 0 = 4294967296 := by simp [effRatio]
    rw [kneeTarget_of_knee c r ha hlo hhi (hidx ▸ hfirst), hone, bentGain_of_le c le_rfl hlo]

/-- Settles O47: below the knee the level passes, and in the knee the index of the rational form is the machine's. -/
theorem softKneeContinuousAtLowerBound : Obligations.SoftKneeContinuousAtLowerBound := by
  intro c r a hc h
  rcases Nat.lt_or_ge (100 * a) (32767 * kneeLo r.thresholdPercent.toNat) with hlo | hlo
  · exact kneeTarget_of_below c r hlo
  · rcases h with hbelow | ⟨hhi, hidx⟩
    · exact absurd ((inLevel_lt_lowerKnee_iff _ a).mp hbelow) (Nat.not_lt.mpr hlo)
    · have hhi' : 100 * a ≤ 32767 * kneeHi r.thresholdPercent.toNat :=
        Nat.not_lt.mp fun h => hhi.not_gt ((upperKnee_lt_inLevel_iff _ a).mpr h)
      exact kneeTarget_of_kneeIndex_eq_zero r hc hlo hhi' (kneeIndexQ_eq hlo ▸ hidx)

/-! ## One sample in the spec's terms -/

theorem cast_gainOne (c : Config) : (gainOne c : Int) = 2 ^ c.gainFrac.val := by
  rw [gainOne, Nat.cast_pow, Nat.cast_ofNat]

theorem smoothed_eq_nextGain (c : Config) (r : CompRegs) (tg : Nat) : smoothed c r tg = nextGain c r tg := by
  have hpos := gainOne_pos c
  rw [smoothed, ← cast_gainOne]
  exact (Int.toNat_of_nonneg (by omega)).symm

theorem scaled_eq_applyGain (c : Config) (g : Nat) (x : Int) : scaled c g x = applyGain c g x := by
  rw [scaled, ← cast_gainOne, applyGain]

theorem engagedAfter_eq (c : Config) (g : Nat) (engaged : Bool) :
    engagedAfter c g engaged = if 10 * (g : Int) < 9 * 2 ^ c.gainFrac.val then true
      else if 20 * (g : Int) > 19 * 2 ^ c.gainFrac.val then false else engaged := by
  rw [← cast_gainOne, engagedAfter]
  congr 1
  · exact propext (by omega)
  · congr 1
    exact propext (by omega)

theorem compressed_eq (s : State) (i : Nat) (u : EffectUnit) (wrap : CompRegs → Effect) (r : CompRegs) (tg : Nat)
    (x : Sample) :
    compressed s i u wrap r tg x =
      answeredOk (putEffect (s.linkScale (nextGain s.config r tg)) i u (wrap (compAdvance s.config r tg)))
        (BitVec.ofInt 32 (applyGain s.config (nextGain s.config r tg) x.toInt)) := by
  simp only [compressed, smoothed_eq_nextGain, scaled_eq_applyGain, ← engagedAfter_eq, BitVec.ofInt_natCast]
  rfl

theorem exec_process_compSk {s : State} {i : Nat} {u : EffectUnit} {r : CompRegs} {tg : Nat} {x : Sample}
    (hu : Holds s i u) (ha : u.active = true) (he : u.effect = .compSk r)
    (ht : kneeTarget s.config r (level x) = some tg) :
    exec (.process i x) s = .next (compressed s i u .compSk r tg x) := by
  rw [compressed_eq]
  exact (Ran.compSk i x u r tg hu ha he ht).exec_eq

theorem exec_process_compLog {s : State} {i : Nat} {u : EffectUnit} {r : CompRegs} {tg : Nat} {x : Sample}
    (hu : Holds s i u) (ha : u.active = true) (he : u.effect = .compLog r)
    (ht : logTarget s.config r (level x) = some tg) :
    exec (.process i x) s = .next (compressed s i u .compLog r tg x) := by
  rw [compressed_eq]
  exact (Ran.compLog i x u r tg hu ha he ht).exec_eq

/-- Settles O41: the run of a COMP_SK, whose target gain is the rational curve's. -/
theorem processSoftKneeCompresses : Obligations.ProcessSoftKneeCompresses := by
  intro s i x u r hc hu ha he
  have ⟨_, hlen, _⟩ := hc
  obtain ⟨tg, ht, -⟩ := kneeTarget_ok s.config r (level x) hlen
  exact ⟨tg, (kneeTarget_eq_kneeTargetQ r _ hc).symm.trans ht, exec_process_compSk hu ha he ht⟩

/-- Settles O42: the run of a COMP_LOG, whose target gain is the rational curve's. -/
theorem processLogThresholdCompresses : Obligations.ProcessLogThresholdCompresses := by
  intro s i x u r hc hu ha he h1 h99
  obtain ⟨-, -, -, -, -, -, hlen, -⟩ := hc
  obtain ⟨tg, ht, -⟩ := logTarget_ok s.config r (level x) hlen h1 h99
  exact ⟨tg, (logTarget_eq_logTargetQ _ r _).symm.trans ht, exec_process_compLog hu ha he ht⟩

/-! ## The direction of the gain step -/

/-- The step is a part of the way between the gain and its target, under either rounding (R227 b). -/
theorem smoothGain_between (c : Config) {g tg : Nat} (k : Nat) (hg : g ≤ gainOne c) (ht : tg ≤ gainOne c) :
    min g tg ≤ smoothGain c g tg k ∧ smoothGain c g tg k ≤ max g tg := by
  simp only [smoothGain]
  split
  · omega
  next hk =>
    have hk' : (1000 : Int) ≤ k := by omega
    have hlo : (k : Int) * min 0 ((tg : Int) - g) ≤ 1000 * (tg - g) :=
      (mul_le_mul_of_nonpos_right hk' (min_le_left _ _)).trans (mul_le_mul_of_nonneg_left (min_le_right _ _) (by decide))
    have hhi : 1000 * ((tg : Int) - g) ≤ k * max 0 ((tg : Int) - g) :=
      (mul_le_mul_of_nonneg_left (le_max_right _ _) (by decide)).trans
        (mul_le_mul_of_nonneg_right hk' (le_max_left _ _))
    have hstep := quot_between c.rounding _ k _ _ (by omega) hlo hhi
    omega

/-- A gain of at most 1.0 never raises the magnitude (R227 d). -/
theorem applyGain_natAbs_le (c : Config) {g : Nat} (hg : g ≤ gainOne c) (x : Int) :
    (applyGain c g x).natAbs ≤ x.natAbs := by
  have hpos := gainOne_pos c
  rw [applyGain, mul_comm]
  exact (clip_quot_attenuates c.rounding x (by omega) (by omega) (by omega)).1

/-- Every compressor of a state in range finds a target gain in range, and completes. -/
theorem exists_exec_process_compressor {s : State} {i : Nat} {u : EffectUnit} {r : CompRegs} {wrap : CompRegs → Effect}
    (x : Sample) (hwrap : wrap = .compSk ∨ wrap = .compLog) (hs : Inv s) (hu : Holds s i u) (ha : u.active = true)
    (he : u.effect = wrap r) :
    r.currentGain.toNat ≤ gainOne s.config ∧
    ∃ tg, tg ≤ gainOne s.config ∧ exec (.process i x) s = .next (compressed s i u wrap r tg x) := by
  obtain ⟨-, hknee, -, -, -, -, hlog, -⟩ := hs.1
  have hok := effectOk_of_holds hs hu he
  rcases hwrap with rfl | rfl
  · obtain ⟨-, -, hg, -⟩ : CompOk s.config 0 100 r := of_decide_eq_true hok
    obtain ⟨tg, ht, hle⟩ := kneeTarget_ok s.config r (level x) hknee
    exact ⟨hg, tg, hle, exec_process_compSk hu ha he ht⟩
  · obtain ⟨h1, h99, hg, -⟩ : CompOk s.config 1 99 r := of_decide_eq_true hok
    obtain ⟨tg, ht, hle⟩ := logTarget_ok s.config r (level x) hlog h1 h99
    exact ⟨hg, tg, hle, exec_process_compLog hu ha he ht⟩

/-- Settles O53: the new gain lies between the old one and the target, and is at most 1.0. -/
theorem gainMovesTowardTarget : Obligations.GainMovesTowardTarget := by
  intro s i x u r wrap hwrap hs hu ha he
  obtain ⟨hg, tg, ht, hexec⟩ := exists_exec_process_compressor x hwrap hs hu ha he
  have hnext : nextGain s.config r tg ≤ gainOne s.config := smoothGain_le _ _ _ _
  have hbetween := smoothGain_between s.config (smoothK r tg) hg ht
  rw [compressed_eq] at hexec
  refine ⟨_, compAdvance s.config r tg, _, hexec, holds_putEffect (s := s.linkScale _) hu _, rfl,
    applyGain_natAbs_le _ hnext _, ?_⟩
  have htarget : (compAdvance s.config r tg).targetGain.toNat = tg := gainWord_toNat _ _ ht
  have hcurrent : (compAdvance s.config r tg).currentGain.toNat =
      smoothGain s.config r.currentGain.toNat tg (smoothK r tg) := gainWord_toNat _ _ hnext
  rw [htarget, hcurrent]
  refine ⟨ht, hnext, ?_, ?_⟩ <;> omega

end Sys2Proof.Machine
end

section
/-! PROOFS. The statements of the exceptions family (60_exceptions.md): a failed command writes nothing but `first_err`
(R254), `first_err` keeps the first failure (R255), and no request stops a unit in range (R250). -/

namespace Sys2Proof.Machine

open Sys2Proof.Spec

/-! ## How a command ends -/

/-- How a command that takes `s` to `t` ended: with an error status, and then the answer is all it did, or with `OK`, and
then it left `first_err` alone. -/
inductive Ended (s t : State) : Prop
  | failed (st : Status) (hst : st ≠ .ok) (ht : t = answeredErr s st)
  | completed (v : Word) (hresp : t.responses = s.responses ++ [⟨.ok, v⟩]) (hfirst : t.firstErr = s.firstErr)

theorem ended_respond_err (s : State) {st : Status} (hst : st ≠ .ok) : Ended s (s.respond st 0) :=
  .failed st hst (respond_eq_answeredErr s hst)

theorem Ran.firstErr {s t : State} {i : Instr} {v : Word} (h : Ran s i t v) : t.firstErr = s.firstErr := by
  cases h <;> rfl

theorem ended_exec {i : Instr} {s t : State} (h : exec i s = .next t) : Ended s t := by
  rcases exec_next_cases i s t h with ⟨st, hst, rfl⟩ | ⟨r, v, hr, rfl⟩
  · exact ended_respond_err s hst
  · obtain ⟨-, -, -, hresp⟩ := hr.host
    refine .completed v ?_ ?_
    · rw [State.respond_responses, hresp]
    · rw [State.respond_firstErr, stickyErr_ok, hr.firstErr]

/-- A step on a presented request ends as a command does, an illegal word among them. -/
theorem ended_step {s t : State} {r : Request} (hr : s.program[s.hostIndex]? = some r) (h : step s = .next t) :
    Ended s t := by
  rcases step_cases s with ⟨hn, -⟩ | ⟨r', er, -, -, e⟩ | ⟨r', i, -, -, e⟩
  · cases hn.symm.trans hr
  · cases e.symm.trans h
    exact ended_respond_err s (by decide)
  · exact ended_exec (e.symm.trans h)

/-! ## Failed commands and the sticky status -/

theorem Ended.eq_answeredErr {s t : State} (h : Ended s t) :
    ∃ resp : Response, t.responses = s.responses ++ [resp] ∧ (resp.status ≠ .ok → t = answeredErr s resp.status) := by
  cases h with
  | failed st hst ht => exact ⟨⟨st, 0⟩, ht ▸ rfl, fun _ => ht⟩
  | completed v hresp => exact ⟨⟨.ok, v⟩, hresp, fun hne => absurd rfl hne⟩

/-- Settles O13: a step ends as a command does, and a command that failed did no more than answer. -/
theorem failedCommandWritesOnlyFirstErr : Obligations.FailedCommandWritesOnlyFirstErr :=
  ⟨fun _ _ _ h => (ended_exec h).eq_answeredErr, fun _ _ _ hr h => (ended_step hr h).eq_answeredErr⟩

theorem Ended.firstErr_eq {s t : State} (h : Ended s t) :
    ∃ resp : Response, t.responses = s.responses ++ [resp] ∧
      t.firstErr = if resp.status ≠ .ok ∧ s.firstErr = .ok then resp.status else s.firstErr := by
  cases h with
  | failed st hst ht => exact ⟨⟨st, 0⟩, ht ▸ rfl, by simp [ht, answeredErr, hst]⟩
  | completed v hresp hfirst => exact ⟨⟨.ok, v⟩, hresp, by simp [hfirst]⟩

/-- `first_err` stands in bits 7:4 of the status word (R86). -/
theorem statusWord_firstErr (engaged : Bool) (st : Status) :
    (statusWord engaged st).toNat / 16 % 16 = st.code.toNat := by
  cases engaged <;> cases st <;> rfl

/-- Settles O14: of the two ways a step ends, only a failure can set `first_err`, and `GETSTATUS` answers it. -/
theorem firstErrKeepsFirstFailure : Obligations.FirstErrKeepsFirstFailure :=
  ⟨fun _ _ _ hr h => (ended_step hr h).firstErr_eq,
   fun _ => ⟨_, Ran.getStatus.exec_eq, statusWord_firstErr _ _⟩⟩

/-! ## The unit never stops -/

/-- In a state in range every command ends in a next state: only `PROCESS` on a slot that holds an effect unit could
fault, and there it completes. -/
theorem exists_exec_eq_next {s : State} (hs : Inv s) (i : Instr) : ∃ t, exec i s = .next t := by
  have ha := exec_answers i s
  generalize hresult : exec i s = result at ha
  cases ha with
  | failed st | ran t v => exact ⟨_, rfl⟩
  | delayFault k x u d hi hu | kneeFault k x u r hi hu | logFault k x u r hi hu =>
    subst hi
    obtain ⟨t, y, hran, -⟩ := exists_ran_process hs hu x
    exact ⟨_, hresult.symm.trans hran.exec_eq⟩

/-- Settles O60: a step without a request idles, an illegal word is answered, and a command ends in a next state. -/
theorem unitNeverStops : Obligations.UnitNeverStops := by
  intro s hs
  rcases step_cases s with ⟨-, e⟩ | ⟨r, er, -, -, e⟩ | ⟨r, i, -, -, e⟩
  · exact ⟨_, e⟩
  · exact ⟨_, e⟩
  · rw [e]
    exact exists_exec_eq_next hs i

end Sys2Proof.Machine
end
